-- ==== Sys2Proof/Word.lean ====
section
/-! DEFINITION. The word types of the block (00_scope.md R8): bytes, alphabet indices, groups, registers. -/

namespace Sys2Proof

/-- A buffer or ROM entry, 8 bits (R8). -/
abbrev Byte := BitVec 8

/-- An alphabet index, 6 bits (R8, R96). -/
abbrev Index := BitVec 6

/-- A byte group or character group, 24 bits (R8, R94, R98). -/
abbrev Group := BitVec 24

/-- A host register, `REG_W` = 32 bits (R7, R22). -/
abbrev Word := BitVec 32

/-- The four 6-bit index fields of a group, most significant first (R94, R98). -/
@[ext] structure Sextets where
  i0 : Index
  i1 : Index
  i2 : Index
  i3 : Index
  deriving DecidableEq, Repr

/-- The three bytes of a group, most significant first (R94, R98). -/
@[ext] structure Octets where
  y1 : Byte
  y2 : Byte
  y3 : Byte
  deriving DecidableEq, Repr

end Sys2Proof
end

