-- ==== Sys2Proof/Config.lean ====
section
/-! DEFINITION. What an implementation fixes (00_scope.md R7) and the model's one free value. -/

namespace Sys2Proof

/-- `MAX_IN_LEN` (R7): a natural that meets R7's inequality `4 * ceil(MAX_IN_LEN / 3) <= 2^REG_W - 1`,
or unbounded. How the unbounded case meets the inequality: DEDUCED, log 2. -/
inductive Capacity where
  | bounded (m : Nat) (fits : 4 * ((m + 2) / 3) ≤ 2 ^ 32 - 1)
  | unbounded
  deriving DecidableEq, Repr, Inhabited

/-- `STRIP_MODE` (R7, R180): the padding-stripper strategy of DEC. -/
inductive StripMode where
  /-- Value 0: remove every trailing 0x00 byte (R181). -/
  | nulTrim
  /-- Value 1: remove one byte per padding character (R182). -/
  | padCount
  deriving DecidableEq, Repr

/-- The implementation parameters of R7; `REG_W` = 32 is in the type `Word`. -/
structure Params where
  maxInLen : Capacity
  stripMode : StripMode
  deriving DecidableEq, Repr

namespace Config

/-- `MAX_IN_LEN` is OPEN (R7, D13): nothing is known of it but its type. Log 1. -/
opaque maxInLen : Capacity

/-- This hardware has `STRIP_MODE` = NUL_TRIM (R7, R28, R180, D12). Log 9. -/
def stripMode : StripMode := .nulTrim

/-- The parameters of this hardware. -/
def params : Params := { maxInLen := maxInLen, stripMode := stripMode }

/-- FREE VALUE: how many host actions come between the n-th `CMD` write and its core step. The spec
allows any finite number (R281, U23). DESIGN CHOICE of form, log 3. -/
opaque completionLag : Nat → Nat

end Config

end Sys2Proof
end

