-- ==== Sys2Proof/Syntax.lean ====
section
/-! DEFINITION. The instructions: the two commands of opcode_table.json (30_encoding.md R91). -/

namespace Sys2Proof

/-- One constructor per row of spec/opcode_table.json. A command word carries no operand (R93): the
operands `ILEN`, `IBUF[0..ILEN)` and `CONFIG.STRIP_MODE` are implicit. -/
inductive Instr where
  /-- ENCODE, command word 0x00000000 (R120). -/
  | encode
  /-- DECODE, command word 0x00000001 (R160). -/
  | decode
  deriving DecidableEq, Repr

end Sys2Proof
end

