-- ==== Sys2Proof/WellFormed.lean ====
section
/-! DEFINITION. Well-formed command words and instructions (30_encoding.md R90, R92, R93). -/

namespace Sys2Proof

/-- The reserved field `CMD[31:1]` of a command word is 0 (R90). This is the one check the encoding has. -/
def reservedBitsClear (w : Word) : Bool := w.extractLsb' 1 31 == 0

/-- An instruction has no operand, so no field of it can be ill-formed (R93). -/
def Instr.wellFormed : Instr → Bool
  | .encode => true
  | .decode => true

end Sys2Proof
end

