-- ==== Sys2Proof/Decode.lean ====
section
/-! DEFINITION. The command decoder and, after it, the encoder (30_encoding.md R90 to R92). -/

namespace Sys2Proof

/-- Why a word is not a command (R92). -/
inductive DecodeReject where
  /-- A reserved word: one with any of bits 31:1 set (R92). -/
  | reservedCommand
  deriving DecidableEq, Repr

/-- `DecodeCommand`, total over every 32-bit value (R91). -/
def decodeCommand (w : Word) : Except DecodeReject Instr :=
  if w = 0x00000000#32 then .ok .encode
  else if w = 0x00000001#32 then .ok .decode
  else .error .reservedCommand

/-- The command word of an instruction: `MODE` in bit 0, bits 31:1 zero (R90, R91). -/
def encodeCommand : Instr → Word
  | .encode => 0x00000000#32
  | .decode => 0x00000001#32

/-- The 32-bit command word with the table's `nbits` low bits `w` and zeros above. -/
def tableWord (nbits w : Nat) : Word := BitVec.ofNat 32 (w % 2 ^ nbits)

/-- The instruction the decoder reads from a word numbered as opcode_table.json numbers it. A command is
exactly one 32-bit word (R90), so a longer one is refused. -/
def decodeTableWord (nbits w : Nat) : Option Instr :=
  if nbits ≤ 32 then (decodeCommand (tableWord nbits w)).toOption else none

end Sys2Proof
end

