-- ==== Sys2Proof/Machine/State.lean ====
section
/-! DEFINITION. The state of one core instance (10_state.md R20), the host's transactions, the reasons a
step can stop, and the state after reset (R40). -/

namespace Sys2Proof.Machine

/-- `STATUS.PHASE` (R24). The value 3 is never produced (R100), so it has no constructor. -/
inductive Phase where
  | idle
  | busy
  | done
  deriving DecidableEq, Repr

/-- `STATUS.ERR` (R24, R230). -/
inductive ErrCode where
  | ok
  | errLength
  | errChar
  | errPad
  deriving DecidableEq, Repr

/-- The six host registers (R22, R64). -/
inductive HostReg where
  | cmd
  | status
  | ilen
  | olen
  | errpos
  | config
  deriving DecidableEq, Repr

/-- A host transaction, or the reset event (R65 to R69, R270). A register is named by its number, which
may name no register (R22). -/
inductive HostAction where
  /-- `HostWriteReg(r, v)` (R68). -/
  | writeReg (r : Nat) (v : Word)
  /-- `HostReadReg(r)` (R69). -/
  | readReg (r : Nat)
  /-- `HostWriteIBUF(a, v)` (R65). -/
  | writeIbuf (a : Nat) (v : Byte)
  /-- `HostReadIBUF(a)` (R66). -/
  | readIbuf (a : Nat)
  /-- A host write to `OBUF`, which R67 refuses. -/
  | writeObuf (a : Nat) (v : Byte)
  /-- `HostReadOBUF(a)` (R67). -/
  | readObuf (a : Nat)
  /-- The reset event (R270). -/
  | reset
  deriving DecidableEq, Repr

/-- What a host read returned (R66, R67, R69). -/
inductive Reply where
  | reg (r : HostReg) (v : Word)
  | ibuf (a : Nat) (b : Byte)
  | obuf (a : Nat) (b : Byte)
  deriving DecidableEq, Repr

/-- `IBUF` with its marks `IBUF_W` (R20, R36): a listed address has been written since reset and holds
that byte; an unlisted address holds no value. -/
abbrev Memory := List Host.Cell

/-- The state of one instance. The first eight fields are R20's; `CONFIG`, `ALPHA_ROM` and `REV_ROM` are
constants of the configuration (R20). The last four are the model's own (log 3, log 4). -/
structure State where
  /-- `CMD`, register 0 (R23). -/
  cmd : Word
  /-- `STATUS.PHASE` (R24, R38). -/
  phase : Phase
  /-- `STATUS.ERR` (R24, R29). -/
  err : ErrCode
  /-- `ILEN`, register 2 (R25). -/
  ilen : Word
  /-- `OLEN`, register 3 (R26). -/
  olen : Word
  /-- `ERRPOS`, register 4 (R27). -/
  errpos : Word
  /-- `IBUF` and `IBUF_W` (R36). -/
  ibuf : Memory
  /-- `OBUF` (R37). -/
  obuf : List Byte
  /-- The host's transactions still to come, oldest first. DESIGN CHOICE, log 4. -/
  hostQueue : List HostAction
  /-- What the host's reads returned, newest first. DESIGN CHOICE, log 4. -/
  replies : List Reply
  /-- How many host actions may still come before the pending core step (R281): a free value while BUSY. DESIGN CHOICE, log 3. -/
  coreLag : Nat
  /-- How many commands have been started: the argument of the free value. DESIGN CHOICE, log 3. -/
  issued : Nat
  deriving DecidableEq, Repr

/-- What stops the machine with a fault. -/
inductive Fault where
  /-- Raised by ENCODE and DECODE when a byte of `IBUF[0..ILEN)` has not been written since reset (R82,
  R239). Safe: the hardware goes on with an unspecified byte, and the model gives the command no result. -/
  | unwrittenInput
  deriving DecidableEq, Repr

/-- Why an action has no step (R6, R240). The state is unchanged. Every refusal is safe: the model stops
where hardware might go on. -/
inductive Refusal where
  /-- Raised by `exec` alone, for an instruction without a meaning. Safe. No arm raises it now. -/
  | notModelled (mnemonic : String)
  /-- Raised by a host read or write of register 6 or above (R68, R69). Safe. -/
  | noSuchRegister
  /-- Raised by a host write to `STATUS`, `OLEN`, `ERRPOS`, `CONFIG` or `OBUF` (R67, R68). Safe. -/
  | readOnly
  /-- Raised by a host write to `CMD`, `ILEN` or `IBUF` while BUSY (R65, R68). Safe. -/
  | writeWhileBusy
  /-- Raised by a host read of `OLEN`, `ERRPOS` or `OBUF` while BUSY (R67, R69). Safe. -/
  | readWhileBusy
  /-- Raised by a host write of a reserved word to `CMD` (R92), and by a core step whose `CMD` holds one,
  which no run reaches (log 12). Safe. -/
  | reservedCommand
  /-- Raised by a host write to `ILEN` above `MAX_IN_LEN` (R25). Safe. -/
  | lengthOutOfRange
  /-- Raised by an `IBUF` access at or above `MAX_IN_LEN` and an `OBUF` read at or above `OLEN` (R65 to
  R67). Safe. -/
  | addressOutOfRange
  /-- Raised by a host read of an `IBUF` byte not written since reset (R66). Safe. -/
  | readUnwritten
  /-- Raised by a bit helper asked on its own for `n > 8` (R214). No step reaches it. Safe. -/
  | helperOutOfDomain
  deriving DecidableEq, Repr

/-- The state after reset (R40, R272), with no transaction pending. -/
def State.reset : State :=
  { cmd := 0x00000000#32
    phase := .idle
    err := .ok
    ilen := 0#32
    olen := 0#32
    errpos := 0#32
    ibuf := []
    obuf := []
    hostQueue := []
    replies := []
    coreLag := 0
    issued := 0 }

end Sys2Proof.Machine
end

