-- ==== Sys2Proof/Machine/Rom.lean ====
section
/-! DEFINITION. The immutable ROMs and the padding byte (10_state.md R30 to R35). The byte values are the
spec's ASCII codes, PRESUMED by the spec itself (93_implementation_defined.md G1, log 10). -/

namespace Sys2Proof.Machine

/-- The padding byte `PAD`, the character `=` (R32). -/
def pad : Byte := 0x3D#8

/-- `ALPHA_ROM`, entries 0 to 15 (R30). -/
def alphaTable0 : List Byte :=
  [0x41, 0x42, 0x43, 0x44, 0x45, 0x46, 0x47, 0x48, 0x49, 0x4A, 0x4B, 0x4C, 0x4D, 0x4E, 0x4F, 0x50]

/-- `ALPHA_ROM`, entries 16 to 31 (R30). -/
def alphaTable1 : List Byte :=
  [0x51, 0x52, 0x53, 0x54, 0x55, 0x56, 0x57, 0x58, 0x59, 0x5A, 0x61, 0x62, 0x63, 0x64, 0x65, 0x66]

/-- `ALPHA_ROM`, entries 32 to 47 (R30). -/
def alphaTable2 : List Byte :=
  [0x67, 0x68, 0x69, 0x6A, 0x6B, 0x6C, 0x6D, 0x6E, 0x6F, 0x70, 0x71, 0x72, 0x73, 0x74, 0x75, 0x76]

/-- `ALPHA_ROM`, entries 48 to 63 (R30). -/
def alphaTable3 : List Byte :=
  [0x77, 0x78, 0x79, 0x7A, 0x30, 0x31, 0x32, 0x33, 0x34, 0x35, 0x36, 0x37, 0x38, 0x39, 0x2B, 0x2F]

/-- `ALPHA_ROM` in index order (R30). -/
def alphaTable : List Byte := alphaTable0 ++ alphaTable1 ++ alphaTable2 ++ alphaTable3

/-- `ALPHA_ROM[i]` (R30, R96). Every 6-bit index has an entry, so the default is never read. -/
def alphaRom (i : Index) : Byte := alphaTable.getD i.toNat 0

/-- A `REV_ROM` entry of class VALID with index `v`: bit 7 set, bit 6 clear, the index below (R34). -/
def validEntry (v : Byte) : Byte := 0x80#8 ||| v

/-- `REV_ROM[c]`, by the byte ranges of R33; the entry format is R34's. -/
def revRom (c : Byte) : Byte :=
  if c = 0x2B#8 then 0xBE#8
  else if c = 0x2F#8 then 0xBF#8
  else if 0x30#8 ≤ c ∧ c ≤ 0x39#8 then validEntry (c - 0x30#8 + 52#8)
  else if c = 0x3D#8 then 0x40#8
  else if 0x41#8 ≤ c ∧ c ≤ 0x5A#8 then validEntry (c - 0x41#8)
  else if 0x61#8 ≤ c ∧ c ≤ 0x7A#8 then validEntry (c - 0x61#8 + 26#8)
  else 0x00#8

/-- `e[7]` of a `REV_ROM` entry: the byte is VALID (R34). -/
def entryValid (e : Byte) : Bool := e.getLsbD 7

/-- `e[6]` of a `REV_ROM` entry: the byte is `PAD` (R34). -/
def entryPad (e : Byte) : Bool := e.getLsbD 6

/-- `e[5:0]` of a `REV_ROM` entry: the index DEC computes with (R34). -/
def entryIndex (e : Byte) : Index := e.extractLsb' 0 6

end Sys2Proof.Machine
end

