-- ==== Sys2Proof/Machine/Ops.lean ====
section
/-! DEFINITION. The named operations over buffers and registers: `IBUF` access, command completion, the
error completion ("taking an exception", 60_exceptions.md R232) and, beside it, the two ways out of it
(R237): the next `CMD` write and reset. -/

namespace Sys2Proof.Machine

/-! ### `IBUF` (R36, R61) -/

/-- The byte at an address, or none where `IBUF_W` is 0 (R36, R82). -/
def Memory.read : Memory → Nat → Option Byte
  | [], _ => none
  | (a, b) :: m, k => if a = k then some b else Memory.read m k

/-- Write a byte and set its mark `IBUF_W` (R65), keeping the addresses strictly rising. -/
def Memory.write : Memory → Nat → Byte → Memory
  | [], k, v => [(k, v)]
  | (a, b) :: m, k, v =>
    if k < a then (k, v) :: (a, b) :: m
    else if a = k then (k, v) :: m
    else (a, b) :: Memory.write m k v

/-- The canonical form: addresses strictly rising. An unlisted address holds no value, so no entry can
equal what an unlisted address reads as. -/
def Memory.wf : Memory → Bool
  | [] => true
  | (a, _) :: m => m.all (fun c => decide (a < c.1)) && Memory.wf m

/-- Addresses of `IBUF` are the naturals below `MAX_IN_LEN`, every natural if it is unbounded (R61). -/
def hasAddress (cap : Capacity) (a : Nat) : Bool :=
  match cap with
  | .bounded m _ => decide (a < m)
  | .unbounded => true

/-- Legal `ILEN` values are 0 to `MAX_IN_LEN` (R25). Where `MAX_IN_LEN` is unbounded, R7's inequality is
asked of the length itself, so that every result fits `OLEN`: DEDUCED, log 2. -/
def legalLength (cap : Capacity) (n : Nat) : Bool :=
  match cap with
  | .bounded m _ => decide (n ≤ m)
  | .unbounded => decide (4 * ((n + 2) / 3) ≤ 2 ^ 32 - 1)

/-- Every listed address exists (R61). -/
def Memory.within (cap : Capacity) (m : Memory) : Bool := m.all (fun c => hasAddress cap c.1)

/-- The state after a host byte write to `IBUF` that is not refused (R65). It changes no register. -/
def State.storeIbuf (a : Nat) (v : Byte) (s : State) : State := { s with ibuf := s.ibuf.write a v }

/-- The state after a legal write to `ILEN` (R68). `IBUF` stays as it is (R279). -/
def State.setIlen (v : Word) (s : State) : State := { s with ilen := v }

/-! ### Completions -/

/-- Completion of a command with result `out` and `ERR` = OK, all writes together (R130, R183). -/
def State.complete (out : List Byte) (s : State) : State :=
  { s with
    obuf := out
    olen := BitVec.ofNat 32 out.length
    errpos := 0#32
    err := .ok
    phase := .done }

/-- `raise ERR_X(pos)`: the one error completion, all writes together (R232). Nothing else is saved and
nothing vectors: the block has no trap mechanism. -/
def State.raiseError (code : ErrCode) (pos : Nat) (s : State) : State :=
  { s with
    obuf := []
    olen := 0#32
    err := code
    errpos := BitVec.ofNat 32 pos
    phase := .done }

/-- A legal write `v` to `CMD` (R68): the one way but reset out of an error state (R237). `ERR`, `OLEN`,
`ERRPOS` and `OBUF` keep their values until the core step. The number of host actions that come before
that step is a free value (R281, log 3). -/
def State.startCommand (v : Word) (s : State) : State :=
  { s with
    cmd := v
    phase := .busy
    coreLag := Config.completionLag s.issued
    issued := s.issued + 1 }

/-- The reset event (R270): every register and mark of R20 takes its value of R40, in any phase. What
belongs to the host (its transactions to come, the replies it holds) is not the block's and stays; so
does the counter of the free value (log 18). -/
def State.resetEvent (s : State) : State :=
  { State.reset with
    hostQueue := s.hostQueue
    replies := s.replies
    issued := s.issued }

/-- Deliver a reply to the host; nothing of the block changes (R74). -/
def State.reply (r : Reply) (s : State) : State :=
  { s with replies := r :: s.replies }

end Sys2Proof.Machine
end

