-- ==== Sys2Proof/Machine/Operands.lean ====
section
/-! DEFINITION. The implicit operand of a command (30_encoding.md R93), the shared bit helpers
(42_bit_helpers.md) and the two bit packers (40_encode.md R122, 41_decode.md R170). -/

namespace Sys2Proof.Machine

/-! ### The input operand -/

/-- The `n` bytes from address `a` on, in ascending order (R81), or none if one of them is unwritten. -/
def Memory.readRange (m : Memory) (a : Nat) : Nat → Option (List Byte)
  | 0 => some []
  | n + 1 =>
    match m.read a, Memory.readRange m (a + 1) n with
    | some b, some bs => some (b :: bs)
    | _, _ => none

/-- The input of a command, `IBUF[0..ILEN)` (R93), or none where R82's fault applies. -/
def State.input (s : State) : Option (List Byte) := s.ibuf.readRange 0 s.ilen.toNat

/-! ### Bit helpers (R210 to R214) -/

/-- `topBits(x, n)`: the top `n` bits, right-aligned. `n = 0` is a case of its own (R210, R211). -/
def topBits (x : Byte) (n : Fin 9) : Byte :=
  if n.val = 0 then 0x00#8 else x >>> (8 - n.val)

/-- `bottomBits(x, n)`: the bottom `n` bits, masked. `n = 8` is a case of its own (R212, R213). -/
def bottomBits (x : Byte) (n : Fin 9) : Byte :=
  if n.val = 8 then x else x &&& ((1#8 <<< n.val) - 1#8)

/-- `topBits` exposed on its own: `n > 8` is refused (R214, D28). -/
def topBitsAlone (x : Byte) (n : Nat) : Host.Outcome Byte Fault Refusal :=
  if h : n < 9 then .next (topBits x ⟨n, h⟩) else .refused .helperOutOfDomain

/-- `bottomBits` exposed on its own: `n > 8` is refused (R214, D28). -/
def bottomBitsAlone (x : Byte) (n : Nat) : Host.Outcome Byte Fault Refusal :=
  if h : n < 9 then .next (bottomBits x ⟨n, h⟩) else .refused .helperOutOfDomain

/-! ### The packers -/

/-- PACK (R122): the group `b1 || b2 || b3` cut into four 6-bit indices, most significant first. -/
def pack (b1 b2 b3 : Byte) : Sextets :=
  let g : Group := b1 ++ b2 ++ b3
  { i0 := g.extractLsb' 18 6
    i1 := g.extractLsb' 12 6
    i2 := g.extractLsb' 6 6
    i3 := g.extractLsb' 0 6 }

/-- UNPACK (R170): the word `v1 || v2 || v3 || v4` cut into three bytes, most significant first. -/
def unpack (v : Sextets) : Octets :=
  let w : Group := v.i0 ++ v.i1 ++ v.i2 ++ v.i3
  { y1 := w.extractLsb' 16 8
    y2 := w.extractLsb' 8 8
    y3 := w.extractLsb' 0 8 }

/-- The index DEC computes with for the character `c`: `REV_ROM[c][5:0]`, which is 0 for `PAD` (R169). -/
def charIndex (c : Byte) : Index := entryIndex (revRom c)

end Sys2Proof.Machine
end

