-- ==== Sys2Proof/Machine/Flags.lean ====
section
/-! DEFINITION. `STATUS.ERR`, the block's only flag (10_state.md R29): the register word it stands in
(R24), and how DECODE's validation computes it (41_decode.md R161 to R167, 60_exceptions.md R230 to R235). -/

namespace Sys2Proof.Machine

/-! ### Register words -/

/-- The code of a phase in `STATUS[1:0]` (R24). -/
def Phase.code : Phase → BitVec 2
  | .idle => 0#2
  | .busy => 1#2
  | .done => 2#2

/-- The code of an error in `STATUS[3:2]` (R24, R230). -/
def ErrCode.code : ErrCode → BitVec 2
  | .ok => 0#2
  | .errLength => 1#2
  | .errChar => 2#2
  | .errPad => 3#2

/-- The whole `STATUS` register: reserved bits 31:4 read 0 (R24). -/
def State.statusWord (s : State) : Word := 0#28 ++ s.err.code ++ s.phase.code

/-- The whole `CONFIG` register: `STRIP_MODE` in bit 0, reserved bits 31:1 read 0 (R28). -/
def configWord : StripMode → Word
  | .nulTrim => 0x00000000#32
  | .padCount => 0x00000001#32

/-! ### Classification and validation -/

/-- The class of a decode input byte (R33, R163). -/
inductive CharClass where
  | valid (v : Index)
  | pad
  | invalid
  deriving DecidableEq, Repr

/-- Classification of one input byte by its `REV_ROM` entry (R163, R34). -/
def classify (c : Byte) : CharClass :=
  if entryValid (revRom c) then .valid (entryIndex (revRom c))
  else if entryPad (revRom c) then .pad
  else .invalid

/-- An error of DECODE with the position it records (R230). -/
inductive DecodeError where
  /-- ERR_LENGTH, which records position 0 (R231). -/
  | length
  /-- ERR_CHAR at a position (R233). -/
  | char (pos : Nat)
  /-- ERR_PAD at a position (R234). -/
  | pad (pos : Nat)
  deriving DecidableEq, Repr

/-- The code written to `STATUS.ERR` (R230). -/
def DecodeError.code : DecodeError → ErrCode
  | .length => .errLength
  | .char _ => .errChar
  | .pad _ => .errPad

/-- The position written to `ERRPOS` (R230). -/
def DecodeError.pos : DecodeError → Nat
  | .length => 0
  | .char p => p
  | .pad p => p

/-- `LEGAL_PAD` said of the rest of the input from the position on: the position is one of the last two,
and every position from it to the end holds `PAD` (R165). -/
def legalPadTail (rest : List Byte) : Bool :=
  decide (rest.length ≤ 2) && rest.all (fun c => decide (c = pad))

/-- Validation in ascending order, stopping at the first position that fails (R164, R166, R167). The list
is the input from position `i` on. -/
def scanFrom (i : Nat) : List Byte → Option DecodeError
  | [] => none
  | c :: cs =>
    match classify c with
    | .invalid => some (.char i)
    | .pad => if legalPadTail (c :: cs) then scanFrom (i + 1) cs else some (.pad i)
    | .valid _ => scanFrom (i + 1) cs

/-- The error a DECODE of `cs` raises, if any: the length first, then the lowest failing position (R235). -/
def decodeErrorOf (cs : List Byte) : Option DecodeError :=
  if cs.length % 4 ≠ 0 then some .length else scanFrom 0 cs

/-- The pad count `p` (R168). -/
def padCountOf (cs : List Byte) : Nat := cs.countP (fun c => decide (c = pad))

end Sys2Proof.Machine
end

