-- ==== Sys2Proof/Machine/Decoder.lean ====
section
/-! DEFINITION. The decoder DEC (41_decode.md). -/

namespace Sys2Proof.Machine

/-- The four indices of a character group (R169). -/
def groupIndices (c1 c2 c3 c4 : Byte) : Sextets :=
  { i0 := charIndex c1, i1 := charIndex c2, i2 := charIndex c3, i3 := charIndex c4 }

/-- The recovered bytes of all groups in group order, `raw`, 3 bytes per group (R172). Validation has
made the length a multiple of 4, so no characters are left over. -/
def recoverBytes : List Byte → List Byte
  | c1 :: c2 :: c3 :: c4 :: rest =>
    (unpack (groupIndices c1 c2 c3 c4)).y1 :: (unpack (groupIndices c1 c2 c3 c4)).y2 ::
      (unpack (groupIndices c1 c2 c3 c4)).y3 :: recoverBytes rest
  | _ => []

/-- NUL_TRIM: every trailing 0x00 byte is removed (R181). -/
def nulTrim (raw : List Byte) : List Byte :=
  (raw.reverse.dropWhile (fun b => decide (b = 0x00#8))).reverse

/-- The padding stripper in either strategy (R180 to R182). -/
def strip (mode : StripMode) (raw : List Byte) (p : Nat) : List Byte :=
  match mode with
  | .nulTrim => nulTrim raw
  | .padCount => raw.take (raw.length - p)

/-- The result of DECODE on the input characters, or the error it raises (R160), in either strip mode. -/
def decodeBytes (mode : StripMode) (cs : List Byte) : Except DecodeError (List Byte) :=
  match decodeErrorOf cs with
  | some e => .error e
  | none => .ok (strip mode (recoverBytes cs) (padCountOf cs))

/-- One DECODE core step with the strip mode as an argument (R7, R160): the result (R183), the error
completion (R232), or R82's fault, which comes before every error (R235). -/
def runDecode (mode : StripMode) (s : State) : Host.Outcome State Fault Refusal :=
  match s.input with
  | none => .fault .unwrittenInput
  | some cs =>
    match decodeBytes mode cs with
    | .error e => .next (s.raiseError e.code e.pos)
    | .ok out => .next (s.complete out)

/-- DECODE (R160) on this hardware, whose `CONFIG.STRIP_MODE` is NUL_TRIM (R180, log 9). -/
def execDecode (s : State) : Host.Outcome State Fault Refusal := runDecode Config.stripMode s

end Sys2Proof.Machine
end

