-- ==== Sys2Proof/Machine/Encoder.lean ====
section
/-! DEFINITION. The encoder ENC (40_encode.md). -/

namespace Sys2Proof.Machine

/-- The characters of the input without padding: the full groups in ascending order, then the tail
(R121, R125, R126, R127). A character that would come wholly from a missing byte is not emitted. -/
def emitChars : List Byte → List Byte
  | [] => []
  | [b1] =>
    [alphaRom (pack b1 0x00#8 0x00#8).i0, alphaRom (pack b1 0x00#8 0x00#8).i1]
  | [b1, b2] =>
    [alphaRom (pack b1 b2 0x00#8).i0, alphaRom (pack b1 b2 0x00#8).i1, alphaRom (pack b1 b2 0x00#8).i2]
  | b1 :: b2 :: b3 :: rest =>
    alphaRom (pack b1 b2 b3).i0 :: alphaRom (pack b1 b2 b3).i1 :: alphaRom (pack b1 b2 b3).i2 ::
      alphaRom (pack b1 b2 b3).i3 :: emitChars rest

/-- Padding after every character has been emitted (R128). -/
def padOut (out : List Byte) : List Byte :=
  if out.length % 4 = 2 then out ++ [pad, pad]
  else if out.length % 4 = 3 then out ++ [pad]
  else out

/-- The result of ENCODE on the input bytes (R120). -/
def encodeBytes (bs : List Byte) : List Byte := padOut (emitChars bs)

/-- ENCODE (R120): the input's encoding, or R82's fault. It raises no error code (R131). -/
def execEncode (s : State) : Host.Outcome State Fault Refusal :=
  match s.input with
  | none => .fault .unwrittenInput
  | some bs => .next (s.complete (encodeBytes bs))

end Sys2Proof.Machine
end

