-- ==== Sys2Proof/Machine/HostPort.lean ====
section
/-! DEFINITION. The host interface: one definition per host primitive (20_memory.md R65 to R69), and the
choice of who moves next (R76, 70_reset_and_hazards.md R281). The refusal checks stand in the order of the
spec's pseudocode. -/

namespace Sys2Proof.Machine

/-- The register a number names; 6 and above name none (R22, R64). -/
def regOfNumber : Nat → Option HostReg
  | 0 => some .cmd
  | 1 => some .status
  | 2 => some .ilen
  | 3 => some .olen
  | 4 => some .errpos
  | 5 => some .config
  | _ => none

/-- The whole register as a word, reserved bits 0 (R22 to R28). -/
def regWord (mode : StripMode) (r : HostReg) (s : State) : Word :=
  match r with
  | .cmd => s.cmd
  | .status => s.statusWord
  | .ilen => s.ilen
  | .olen => s.olen
  | .errpos => s.errpos
  | .config => configWord mode

/-- `HostWriteIBUF(a, v)` (R65). -/
def hostWriteIbuf (cap : Capacity) (a : Nat) (v : Byte) (s : State) : Host.Outcome State Fault Refusal :=
  if hasAddress cap a = false then .refused .addressOutOfRange
  else if s.phase = .busy then .refused .writeWhileBusy
  else .next (s.storeIbuf a v)

/-- `HostReadIBUF(a)` (R66). -/
def hostReadIbuf (cap : Capacity) (a : Nat) (s : State) : Host.Outcome State Fault Refusal :=
  if hasAddress cap a = false then .refused .addressOutOfRange
  else
    match s.ibuf.read a with
    | none => .refused .readUnwritten
    | some b => .next (s.reply (.ibuf a b))

/-- `HostReadOBUF(a)` (R67). `OBUF` has `OLEN` bytes in every state a run reaches; elsewhere a missing
byte is refused too (log 13). -/
def hostReadObuf (a : Nat) (s : State) : Host.Outcome State Fault Refusal :=
  if s.phase = .busy then .refused .readWhileBusy
  else if s.olen.toNat ≤ a then .refused .addressOutOfRange
  else
    match s.obuf[a]? with
    | none => .refused .addressOutOfRange
    | some b => .next (s.reply (.obuf a b))

/-- A host write to `OBUF` is refused (R67). -/
def hostWriteObuf (_a : Nat) (_v : Byte) (_s : State) : Host.Outcome State Fault Refusal :=
  .refused .readOnly

/-- A host write to `ILEN` (R25, R68). -/
def hostWriteIlen (cap : Capacity) (v : Word) (s : State) : Host.Outcome State Fault Refusal :=
  if s.phase = .busy then .refused .writeWhileBusy
  else if legalLength cap v.toNat = false then .refused .lengthOutOfRange
  else .next (s.setIlen v)

/-- A host write to `CMD` (R68, R91, R92). -/
def hostWriteCmd (v : Word) (s : State) : Host.Outcome State Fault Refusal :=
  if s.phase = .busy then .refused .writeWhileBusy
  else
    match decodeCommand v with
    | .error .reservedCommand => .refused .reservedCommand
    | .ok _ => .next (s.startCommand v)

/-- `HostWriteReg(r, v)` (R68). -/
def hostWriteReg (cap : Capacity) (r : Nat) (v : Word) (s : State) : Host.Outcome State Fault Refusal :=
  match regOfNumber r with
  | none => .refused .noSuchRegister
  | some .cmd => hostWriteCmd v s
  | some .ilen => hostWriteIlen cap v s
  | some .status => .refused .readOnly
  | some .olen => .refused .readOnly
  | some .errpos => .refused .readOnly
  | some .config => .refused .readOnly

/-- The registers a host may not read while BUSY (R69). -/
def unreadableWhileBusy (r : HostReg) : Bool := r = .olen || r = .errpos

/-- `HostReadReg(r)` (R69). -/
def hostReadReg (mode : StripMode) (r : Nat) (s : State) : Host.Outcome State Fault Refusal :=
  match regOfNumber r with
  | none => .refused .noSuchRegister
  | some reg =>
    if unreadableWhileBusy reg && decide (s.phase = .busy) then .refused .readWhileBusy
    else .next (s.reply (.reg reg (regWord mode reg s)))

/-- One host action on the block (R65 to R69, R270). -/
def hostAct (p : Params) (a : HostAction) (s : State) : Host.Outcome State Fault Refusal :=
  match a with
  | .writeReg r v => hostWriteReg p.maxInLen r v s
  | .readReg r => hostReadReg p.stripMode r s
  | .writeIbuf k v => hostWriteIbuf p.maxInLen k v s
  | .readIbuf k => hostReadIbuf p.maxInLen k s
  | .writeObuf k v => hostWriteObuf k v s
  | .readObuf k => hostReadObuf k s
  | .reset => .next s.resetEvent

/-- Take the next transaction from the host's queue; one fewer may now come before a pending core step. -/
def State.popAction (rest : List HostAction) (s : State) : State :=
  { s with hostQueue := rest, coreLag := s.coreLag - 1 }

/-- The host's step. With no transaction to come nothing happens: no phase leaves IDLE or DONE by itself
(R38; DESIGN CHOICE, log 5). -/
def hostStep (p : Params) (s : State) : Host.Outcome State Fault Refusal :=
  match s.hostQueue with
  | [] => .next s
  | a :: rest => hostAct p a (s.popAction rest)

/-- The host's next transaction has no step in this state (R6), so the host waits (R101, C10). -/
def hostBlocked (p : Params) (s : State) : Bool :=
  match hostStep p s with
  | .refused _ => true
  | _ => false

/-- The pending core step comes next (R76, R281): a command is pending, and the free number of host
actions before it has run out, or the host has nothing to do, or the host must wait (log 3, log 7). -/
def coreTurn (p : Params) (s : State) : Bool :=
  decide (s.phase = .busy) && (decide (s.coreLag = 0) || s.hostQueue.isEmpty || hostBlocked p s)

/-- The command a core step performs: the word in `CMD`, decoded (R68, R91). -/
def pendingCommand (s : State) : Except DecodeReject Instr := decodeCommand s.cmd

/-- A state whose very next core step performs the word `v`, whatever the host has queued: `CMD` holds
it, a command is pending and no host action comes before it (log 6). -/
def State.withPending (v : Word) (s : State) : State :=
  { s with cmd := v, phase := .busy, coreLag := 0 }

end Sys2Proof.Machine
end

