-- ==== Sys2Proof/Machine/Device.lean ====
section
/-! DEFINITION. The parameters of 00_scope.md R7 as an argument of the commands and of a step, so that a
claim can cover both values of `STRIP_MODE` and every `MAX_IN_LEN` (R7, 92_eei_decisions.md D12). -/

namespace Sys2Proof.Machine

/-- The meaning of a command on a device with the parameters `p` (R7, R180). `exec` is this one at the
parameters of this hardware. -/
def execOf (p : Params) (i : Instr) (s : State) : Host.Outcome State Fault Refusal :=
  match i with
  | .encode => execEncode s
  | .decode => runDecode p.stripMode s

/-- A core step in which `run` performs the command in `CMD` (R5, R68). A `CMD` that holds no command is
refused; no run reaches such a state (log 12). -/
def coreStepWith (run : Instr → State → Host.Outcome State Fault Refusal) (s : State) :
    Host.Outcome State Fault Refusal :=
  match pendingCommand s with
  | .ok i => run i s
  | .error .reservedCommand => .refused .reservedCommand

/-- One step: the core's when it is its turn, otherwise the host's (R76, R281). -/
def stepWith (p : Params) (run : Instr → State → Host.Outcome State Fault Refusal) (s : State) :
    Host.Outcome State Fault Refusal :=
  if coreTurn p s then coreStepWith run s else hostStep p s

/-- The core step of a device with the parameters `p`. -/
def coreStepOf (p : Params) (s : State) : Host.Outcome State Fault Refusal := coreStepWith (execOf p) s

/-- One step of a device with the parameters `p`. -/
def stepOf (p : Params) (s : State) : Host.Outcome State Fault Refusal := stepWith p (execOf p) s

/-- A device with the parameters `p` as a machine to run. Every device has the same state after reset:
`CONFIG`, which shows `STRIP_MODE`, is no field of the state (R20, R40). -/
def device (p : Params) : Host.Core :=
  { State := State, Fault := Fault, Refusal := Refusal, step := stepOf p, reset := State.reset }

end Sys2Proof.Machine
end

