-- ==== Sys2Proof/Machine/Step.lean ====
section
/-! DEFINITION. One step of this hardware: one host action or one core step, in one total order
(20_memory.md R73, R76), with the parameters of `Config.params`. -/

namespace Sys2Proof.Machine

/-- The core step: perform the pending command (R5, R68). -/
def coreStep (s : State) : Host.Outcome State Fault Refusal := coreStepWith exec s

/-- One step: the core's when it is its turn, otherwise the host's (R76, R281). -/
def step (s : State) : Host.Outcome State Fault Refusal := stepWith Config.params exec s

/-- The block fetches nothing (R75). Its instruction is the word a host has written to `CMD`, so `s` with
that word pending is the state whose next step performs it (log 6). -/
def State.withFetchWord (s : State) (nbits w : Nat) : State := s.withPending (tableWord nbits w)

end Sys2Proof.Machine
end

