-- ==== Sys2Proof/Safety.lean ====
section
/-! DEFINITION. What claims call a safe state and a safe run: the invariant of the block's registers and
buffers, and a command whose whole input has been written. -/

namespace Sys2Proof.Safety

open Sys2Proof.Machine

/-- Every byte of `IBUF[0..ILEN)` has been written since reset: the premise under which a command has a
defined result (R82, R273, R278). -/
abbrev InputWritten (s : State) : Prop := ∀ a < s.ilen.toNat, (s.ibuf.read a).isSome = true

/-- `bs` is the input of a command in `s`: the byte at each address below `ILEN`, in ascending order
(R81, R93). -/
def IsInput (s : State) (bs : List Byte) : Prop :=
  bs.length = s.ilen.toNat ∧ ∀ a < s.ilen.toNat, s.ibuf.read a = bs[a]?

/-- `LEGAL_PAD(i)` as R165 writes it: `i` is one of the last two positions, and every position from `i`
to the end holds `PAD`. -/
def LegalPadAt (cs : List Byte) (i : Nat) : Prop :=
  cs.length ≤ i + 2 ∧ ∀ j, i ≤ j → j < cs.length → cs[j]? = some pad

/-- Position `i` fails R164 (an INVALID byte) or R166 (a misplaced `PAD`), with the error it raises. -/
def FailsAt (cs : List Byte) (i : Nat) (e : DecodeError) : Prop :=
  ∃ c, cs[i]? = some c ∧
    ((classify c = .invalid ∧ e = .char i) ∨ (classify c = .pad ∧ ¬ LegalPadAt cs i ∧ e = .pad i))

/-- The first position that fails, with the error it raises (R167). -/
def FirstFailure (cs : List Byte) (i : Nat) (e : DecodeError) : Prop :=
  FailsAt cs i e ∧ ∀ j < i, ∀ e', ¬ FailsAt cs j e'

/-- A VALID byte (R33, R163). -/
def IsValid (c : Byte) : Prop := ∃ v, classify c = .valid v

/-- What a command can change of the block, and what the environment sees of it, is the same in `s` and
`t`: every register, flag and buffer. -/
def SameResult (s t : State) : Prop :=
  s.obuf = t.obuf ∧ s.olen = t.olen ∧ s.err = t.err ∧ s.errpos = t.errpos ∧ s.phase = t.phase

/-- The invariant of a block with the parameters `p`. Each field is a rule of the spec about what a register or buffer can
hold. -/
structure Inv (p : Params) (s : State) : Prop where
  /-- Only bit 0 of `CMD` is ever non-zero (R20, R23). -/
  cmdReserved : reservedBitsClear s.cmd = true
  /-- `ILEN` holds a legal value (R25). -/
  ilenLegal : legalLength p.maxInLen s.ilen.toNat = true
  /-- `IBUF` keeps its canonical form. -/
  ibufWf : s.ibuf.wf = true
  /-- Only addresses that exist hold a byte (R61). -/
  ibufWithin : s.ibuf.within p.maxInLen = true
  /-- `OLEN` is the length of `OBUF` (R26, R37). -/
  obufLength : s.obuf.length = s.olen.toNat
  /-- `OBUF` is empty after an error (R232). -/
  errorEmpties : s.err ≠ .ok → s.obuf = []
  /-- `ERRPOS` is 0 after OK and after ERR_LENGTH (R27). -/
  errposZero : s.err = .ok ∨ s.err = .errLength → s.errpos = 0#32
  /-- In IDLE no command has run since reset, so `CMD`, `ERR` and `OBUF` hold their reset values (R24). -/
  idleClean : s.phase = .idle → s.cmd = 0#32 ∧ s.err = .ok ∧ s.obuf = []

end Sys2Proof.Safety
end

