-- ==== Sys2Proof/Certificates/Slice0/Obligations.lean ====
section
/-! DEFINITION. The statements for the provers, in the order of OBLIGATIONS.json. -/

open Sys2Proof Sys2Proof.Machine Sys2Proof.Safety

/-! ### The command word (30_encoding.md) -/

/-- R91: the decoder's answer for every 32-bit word. -/
def Obligations.CommandDecoderIsTotal : Prop :=
  ∀ w : Word,
    (decodeCommand w = .ok .encode ↔ w = 0x00000000#32) ∧
    (decodeCommand w = .ok .decode ↔ w = 0x00000001#32) ∧
    (decodeCommand w = .error .reservedCommand ↔ w ≠ 0x00000000#32 ∧ w ≠ 0x00000001#32)

/-- R90, R91: decoding an encoded instruction gives it back, the word of a decoded instruction is the
word it was read from, and the table's numbering reads the same instruction. -/
def Obligations.CommandWordsRoundTrip : Prop :=
  (∀ i : Instr, i.wellFormed = true → decodeCommand (encodeCommand i) = .ok i) ∧
  (∀ (w : Word) (i : Instr), decodeCommand w = .ok i → encodeCommand i = w ∧ reservedBitsClear w = true) ∧
  (∀ i : Instr, decodeTableWord 32 (encodeCommand i).toNat = some i)

/-- R90: the two command words written out field by field, bits 31:1 and then `MODE`, and two words with
reserved bits set: bit 1 alone, and all of bits 31:1. -/
def Obligations.CommandWordsFieldByField : Prop :=
  decodeCommand ((0#31 : BitVec 31) ++ (0#1 : BitVec 1)) = .ok .encode ∧
  decodeCommand ((0#31 : BitVec 31) ++ (1#1 : BitVec 1)) = .ok .decode ∧
  decodeCommand ((1#31 : BitVec 31) ++ (0#1 : BitVec 1)) = .error .reservedCommand ∧
  decodeCommand (BitVec.allOnes 31 ++ (0#1 : BitVec 1)) = .error .reservedCommand

/-- R92: a write of a reserved word, one with any of bits 31:1 set, is refused in every state, so it
leaves `CMD` and `STATUS` unchanged. While BUSY the busy check comes first (R68). -/
def Obligations.ReservedWordIsRefused : Prop :=
  ∀ (p : Params) (v : Word) (s : State),
    (reservedBitsClear v = false ↔ v ≠ 0x00000000#32 ∧ v ≠ 0x00000001#32) ∧
    (reservedBitsClear v = false → s.phase ≠ .busy → hostAct p (.writeReg 0 v) s = .refused .reservedCommand) ∧
    (reservedBitsClear v = false → s.phase = .busy → hostAct p (.writeReg 0 v) s = .refused .writeWhileBusy)

/-! ### The bit helpers (42_bit_helpers.md) -/

/-- R210 to R213: what the two helpers return on their domain 0 to 8, with the source's examples. -/
def Obligations.HelpersReturnTheirBits : Prop :=
  (∀ (x : Byte) (n : Fin 9),
    (topBits x n).toNat = x.toNat / 2 ^ (8 - n.val) ∧ (topBits x n).toNat < 2 ^ n.val ∧
    (bottomBits x n).toNat = x.toNat % 2 ^ n.val ∧ (bottomBits x n).toNat < 2 ^ n.val) ∧
  (∀ x : Byte, topBits x 0 = 0x00#8 ∧ bottomBits x 8 = x) ∧
  topBits 0xB5#8 6 = 0x2D#8 ∧ bottomBits 0xB5#8 6 = 0x35#8

/-- R214: exposed on their own, the helpers answer for `n` from 0 to 8 and refuse a greater `n`. -/
def Obligations.HelpersRefuseOutOfDomain : Prop :=
  ∀ (x : Byte) (n : Nat),
    (∀ h : n ≤ 8, topBitsAlone x n = .next (topBits x ⟨n, by omega⟩) ∧
      bottomBitsAlone x n = .next (bottomBits x ⟨n, by omega⟩)) ∧
    (8 < n → topBitsAlone x n = .refused .helperOutOfDomain ∧
      bottomBitsAlone x n = .refused .helperOutOfDomain)

/-- R216: the laws of the helpers, the recomposition computed at 16 bits. -/
def Obligations.HelperLaws : Prop :=
  ∀ x : Byte, topBits x 8 = x ∧ bottomBits x 0 = 0x00#8 ∧
    ∀ k : Fin 9,
      x.setWidth 16 = ((topBits x k).setWidth 16 <<< (8 - k.val)) ||| (bottomBits x (8 - k)).setWidth 16 ∧
      (topBits x k).toNat < 2 ^ k.val ∧ (bottomBits x k).toNat < 2 ^ k.val

/-- R215: the helpers on a 6-bit index held in a byte. `topBits` on the unshifted index is 0 for `k ≤ 2`. -/
def Obligations.HelpersOnIndices : Prop :=
  ∀ (v : Index) (k : Fin 9), 1 ≤ k.val → k.val ≤ 6 →
    (topBits (v.setWidth 8 <<< 2) k).toNat = v.toNat / 2 ^ (6 - k.val) ∧
    (bottomBits (v.setWidth 8) k).toNat = v.toNat % 2 ^ k.val ∧
    (k.val ≤ 2 → topBits (v.setWidth 8) k = 0x00#8)

/-! ### The packers (40_encode.md R122, 41_decode.md R170) -/

/-- R122, R94: the four index fields of PACK by bits of the bytes, and PACK is a bijection. -/
def Obligations.PackFields : Prop :=
  (∀ b1 b2 b3 : Byte,
    (pack b1 b2 b3).i0 = b1.extractLsb' 2 6 ∧
    (pack b1 b2 b3).i1 = b1.extractLsb' 0 2 ++ b2.extractLsb' 4 4 ∧
    (pack b1 b2 b3).i2 = b2.extractLsb' 0 4 ++ b3.extractLsb' 6 2 ∧
    (pack b1 b2 b3).i3 = b3.extractLsb' 0 6) ∧
  Function.Bijective (fun o : Octets => pack o.y1 o.y2 o.y3)

/-- R123: PACK by the shared helpers, each 8-bit result below 64. -/
def Obligations.PackByHelpers : Prop :=
  ∀ b1 b2 b3 : Byte,
    ((pack b1 b2 b3).i0.setWidth 8 = topBits b1 6 ∧ (topBits b1 6).toNat < 64) ∧
    ((pack b1 b2 b3).i1.setWidth 8 = (bottomBits b1 2 <<< 4) ||| topBits b2 4 ∧
      ((bottomBits b1 2 <<< 4) ||| topBits b2 4).toNat < 64) ∧
    ((pack b1 b2 b3).i2.setWidth 8 = (bottomBits b2 4 <<< 2) ||| topBits b3 2 ∧
      ((bottomBits b2 4 <<< 2) ||| topBits b3 2).toNat < 64) ∧
    ((pack b1 b2 b3).i3.setWidth 8 = bottomBits b3 6 ∧ (bottomBits b3 6).toNat < 64)

/-- R170, R98: the three bytes of UNPACK by the source's formulas, computed exactly, and UNPACK is the
inverse of PACK. -/
def Obligations.UnpackFields : Prop :=
  (∀ v : Sextets,
    (unpack v).y1.toNat = v.i0.toNat * 4 + v.i1.toNat / 16 ∧
    (unpack v).y2.toNat = v.i1.toNat % 16 * 16 + v.i2.toNat / 4 ∧
    (unpack v).y3.toNat = v.i2.toNat % 4 * 64 + v.i3.toNat) ∧
  (∀ v : Sextets,
    (unpack v).y1 = v.i0 ++ v.i1.extractLsb' 4 2 ∧
    (unpack v).y2 = v.i1.extractLsb' 0 4 ++ v.i2.extractLsb' 2 4 ∧
    (unpack v).y3 = v.i2.extractLsb' 0 2 ++ v.i3) ∧
  (∀ b1 b2 b3 : Byte, unpack (pack b1 b2 b3) = ⟨b1, b2, b3⟩)

/-- R171: UNPACK by the shared helpers on shifted indices. The unshifted reading is always 0 and does not
reproduce the source's example "Uw==", indices 20, 48. -/
def Obligations.UnpackByHelpers : Prop :=
  (0x50#8 = (20#8 <<< 2) ||| topBits 48#8 2 ∧ (unpack ⟨20, 48, 0, 0⟩).y1 = 0x53#8) ∧
  ∀ v : Sextets,
    (unpack v).y1 = (v.i0.setWidth 8 <<< 2) ||| topBits (v.i1.setWidth 8 <<< 2) 2 ∧
    (unpack v).y2 = (bottomBits (v.i1.setWidth 8) 4 <<< 4) ||| topBits (v.i2.setWidth 8 <<< 2) 4 ∧
    (unpack v).y3 = (bottomBits (v.i2.setWidth 8) 2 <<< 6) ||| v.i3.setWidth 8 ∧
    topBits (v.i1.setWidth 8) 2 = 0x00#8

/-! ### The ROMs (10_state.md R30 to R35) -/

/-- R30, R32: the contents of `ALPHA_ROM` by the spec's formula, its entries distinct, and `PAD`, which is
none of them. The byte values are the spec's ASCII codes (log 10). -/
def Obligations.AlphabetRomContents : Prop :=
  (∀ i : Index,
    (i.toNat ≤ 25 → (alphaRom i).toNat = 0x41 + i.toNat) ∧
    (26 ≤ i.toNat → i.toNat ≤ 51 → (alphaRom i).toNat = 0x47 + i.toNat) ∧
    (52 ≤ i.toNat → i.toNat ≤ 61 → (alphaRom i).toNat = i.toNat - 4) ∧
    (i.toNat = 62 → alphaRom i = 0x2B#8) ∧
    (i.toNat = 63 → alphaRom i = 0x2F#8)) ∧
  (∀ i j : Index, alphaRom i = alphaRom j → i = j) ∧
  pad = 0x3D#8 ∧ ∀ i : Index, alphaRom i ≠ pad

/-- R33, R34: every entry of `REV_ROM` by its byte range, the class it means, and the entry fields. -/
def Obligations.ReverseRomContents : Prop :=
  ∀ c : Byte,
    ((c.toNat ≤ 0x2A ∨ (0x2C ≤ c.toNat ∧ c.toNat ≤ 0x2E) ∨ (0x3A ≤ c.toNat ∧ c.toNat ≤ 0x3C) ∨
        (0x3E ≤ c.toNat ∧ c.toNat ≤ 0x40) ∨ (0x5B ≤ c.toNat ∧ c.toNat ≤ 0x60) ∨ 0x7B ≤ c.toNat) →
      revRom c = 0x00#8 ∧ classify c = .invalid) ∧
    (c.toNat = 0x2B → revRom c = 0xBE#8 ∧ classify c = .valid 62#6) ∧
    (c.toNat = 0x2F → revRom c = 0xBF#8 ∧ classify c = .valid 63#6) ∧
    (0x30 ≤ c.toNat → c.toNat ≤ 0x39 → (revRom c).toNat = 0x80 + (c.toNat - 0x30 + 52) ∧
      classify c = .valid (BitVec.ofNat 6 (c.toNat - 0x30 + 52))) ∧
    (c.toNat = 0x3D → revRom c = 0x40#8 ∧ classify c = .pad) ∧
    (0x41 ≤ c.toNat → c.toNat ≤ 0x5A → (revRom c).toNat = 0x80 + (c.toNat - 0x41) ∧
      classify c = .valid (BitVec.ofNat 6 (c.toNat - 0x41))) ∧
    (0x61 ≤ c.toNat → c.toNat ≤ 0x7A → (revRom c).toNat = 0x80 + (c.toNat - 0x61 + 26) ∧
      classify c = .valid (BitVec.ofNat 6 (c.toNat - 0x61 + 26))) ∧
    ((∃ v, classify c = .valid v) ↔ entryValid (revRom c) = true) ∧
    (classify c = .pad ↔ entryPad (revRom c) = true) ∧
    ¬ (entryValid (revRom c) = true ∧ entryPad (revRom c) = true) ∧
    (entryValid (revRom c) = false → entryIndex (revRom c) = 0#6)

/-- R35: `REV_ROM` inverts `ALPHA_ROM`, and the number of entries of each class. -/
def Obligations.RomsAreInverse : Prop :=
  (∀ v : Index, revRom (alphaRom v) = 0x80#8 ||| v.setWidth 8) ∧
  (∀ c : Byte, entryValid (revRom c) = true → alphaRom (entryIndex (revRom c)) = c) ∧
  ((List.finRange 256).filter (fun n => entryValid (revRom (BitVec.ofNat 8 n.val)))).length = 64 ∧
  ((List.finRange 256).filter (fun n => entryPad (revRom (BitVec.ofNat 8 n.val)))).length = 1 ∧
  ((List.finRange 256).filter (fun n => revRom (BitVec.ofNat 8 n.val) = 0x00#8)).length = 191

/-! ### The encoder's datapath (40_encode.md) -/

/-- R121, R124 to R127: the output's length, the four characters of every full group at its place, and
the last group of each tail. -/
def Obligations.EncodeLayout : Prop :=
  ∀ bs : List Byte,
    (encodeBytes bs).length = 4 * ((bs.length + 2) / 3) ∧
    (∀ (g : Nat) (b1 b2 b3 : Byte), bs[3 * g]? = some b1 → bs[3 * g + 1]? = some b2 → bs[3 * g + 2]? = some b3 →
      (encodeBytes bs)[4 * g]? = some (alphaRom (pack b1 b2 b3).i0) ∧
      (encodeBytes bs)[4 * g + 1]? = some (alphaRom (pack b1 b2 b3).i1) ∧
      (encodeBytes bs)[4 * g + 2]? = some (alphaRom (pack b1 b2 b3).i2) ∧
      (encodeBytes bs)[4 * g + 3]? = some (alphaRom (pack b1 b2 b3).i3)) ∧
    (bs.length % 3 = 0 → (encodeBytes bs).length = 4 * (bs.length / 3)) ∧
    (bs.length % 3 = 1 → ∀ b1, bs[3 * (bs.length / 3)]? = some b1 →
      (encodeBytes bs).drop (4 * (bs.length / 3)) =
        [alphaRom (pack b1 0x00#8 0x00#8).i0, alphaRom (b1.extractLsb' 0 2 ++ 0#4), pad, pad]) ∧
    (bs.length % 3 = 2 → ∀ b1 b2, bs[3 * (bs.length / 3)]? = some b1 → bs[3 * (bs.length / 3) + 1]? = some b2 →
      (encodeBytes bs).drop (4 * (bs.length / 3)) =
        [alphaRom (pack b1 b2 0x00#8).i0, alphaRom (pack b1 b2 0x00#8).i1,
          alphaRom (b2.extractLsb' 0 4 ++ 0#2), pad])

/-- R128: padding by the number of characters emitted, which is never 1 modulo 4. -/
def Obligations.PaddingRule : Prop :=
  ∀ bs : List Byte,
    ((emitChars bs).length % 4 = 2 → encodeBytes bs = emitChars bs ++ [pad, pad]) ∧
    ((emitChars bs).length % 4 = 3 → encodeBytes bs = emitChars bs ++ [pad]) ∧
    ((emitChars bs).length % 4 = 0 → encodeBytes bs = emitChars bs) ∧
    ((emitChars bs).length = 4 * (bs.length / 3) ∨ (emitChars bs).length = 4 * (bs.length / 3) + 2 ∨
      (emitChars bs).length = 4 * (bs.length / 3) + 3)

/-- R97, R132: the output is alphabet bytes, then a final run of 0, 1 or 2 `PAD`, of the lengths the
grammar gives. -/
def Obligations.EncodeAlphabetClosure : Prop :=
  ∀ bs : List Byte, ∃ (body : List Byte) (k : Nat),
    encodeBytes bs = body ++ List.replicate k pad ∧
    (∀ c ∈ body, ∃ v : Index, c = alphaRom v) ∧ pad ∉ body ∧
    (bs.length % 3 = 0 → body.length = 4 * (bs.length / 3) ∧ k = 0) ∧
    (bs.length % 3 = 1 → body.length = 4 * (bs.length / 3) + 2 ∧ k = 2) ∧
    (bs.length % 3 = 2 → body.length = 4 * (bs.length / 3) + 3 ∧ k = 1)

/-- R133: the unused bits of the last character before `PAD` are zero, and DECODE accepts every ENCODE
output. -/
def Obligations.EncodeCanonicalTail : Prop :=
  ∀ bs : List Byte,
    (bs.length % 3 = 1 → ∃ v : Index, (encodeBytes bs)[4 * (bs.length / 3) + 1]? = some (alphaRom v) ∧
      v.extractLsb' 0 4 = 0#4) ∧
    (bs.length % 3 = 2 → ∃ v : Index, (encodeBytes bs)[4 * (bs.length / 3) + 2]? = some (alphaRom v) ∧
      v.extractLsb' 0 2 = 0#2) ∧
    decodeErrorOf (encodeBytes bs) = none

/-! ### The decoder's datapath (41_decode.md) -/

/-- R99: the inputs DECODE accepts without an error, exactly. -/
def Obligations.AcceptedInputGrammar : Prop :=
  ∀ cs : List Byte, decodeErrorOf cs = none ↔
    cs = [] ∨ ∃ (body : List Byte) (c1 c2 c3 c4 : Byte),
      cs = body ++ [c1, c2, c3, c4] ∧ body.length % 4 = 0 ∧ (∀ c ∈ body, IsValid c) ∧
      IsValid c1 ∧ IsValid c2 ∧
      ((IsValid c3 ∧ IsValid c4) ∨ (IsValid c3 ∧ c4 = pad) ∨ (c3 = pad ∧ c4 = pad))

/-- R161, R165, R167: the length first, then the lowest position that fails R164 or R166, with its own
error. The report is unique. -/
def Obligations.FirstFailingPositionIsReported : Prop :=
  ∀ cs : List Byte,
    (cs.length % 4 ≠ 0 → decodeErrorOf cs = some .length) ∧
    (cs.length % 4 = 0 → ∀ e, decodeErrorOf cs = some e ↔ ∃ i, FirstFailure cs i e)

/-- R168: after validation the `PAD` bytes are the last `p` bytes, and `p` is 0, 1 or 2. -/
def Obligations.PadCountIsTrailing : Prop :=
  ∀ cs : List Byte, decodeErrorOf cs = none →
    padCountOf cs ≤ 2 ∧ ∃ body, cs = body ++ List.replicate (padCountOf cs) pad ∧ pad ∉ body

/-- R169, R172: the index of every character, and the three recovered bytes of every group at their
place in `raw`, whose length is 3n/4. -/
def Obligations.RawLayout : Prop :=
  (∀ v : Index, charIndex (alphaRom v) = v) ∧ charIndex pad = 0#6 ∧
  ∀ cs : List Byte, cs.length % 4 = 0 →
    (recoverBytes cs).length = 3 * cs.length / 4 ∧
    ∀ (g : Nat) (c1 c2 c3 c4 : Byte), cs[4 * g]? = some c1 → cs[4 * g + 1]? = some c2 →
      cs[4 * g + 2]? = some c3 → cs[4 * g + 3]? = some c4 →
      (recoverBytes cs)[3 * g]? = some (unpack ⟨charIndex c1, charIndex c2, charIndex c3, charIndex c4⟩).y1 ∧
      (recoverBytes cs)[3 * g + 1]? = some (unpack ⟨charIndex c1, charIndex c2, charIndex c3, charIndex c4⟩).y2 ∧
      (recoverBytes cs)[3 * g + 2]? = some (unpack ⟨charIndex c1, charIndex c2, charIndex c3, charIndex c4⟩).y3

/-- R180 to R182: NUL_TRIM removes every trailing 0x00 and nothing else, PAD_COUNT removes exactly the
last `p` bytes, the two are not equivalent, and this hardware has NUL_TRIM. -/
def Obligations.StripperRemovesTheTail : Prop :=
  Config.stripMode = .nulTrim ∧
  (∀ (raw : List Byte) (p : Nat), ∃ k, raw = strip .nulTrim raw p ++ List.replicate k 0x00#8 ∧
    (strip .nulTrim raw p).getLast? ≠ some 0x00#8) ∧
  (∀ (raw : List Byte) (p : Nat), p ≤ raw.length → ∃ tail, raw = strip .padCount raw p ++ tail ∧ tail.length = p) ∧
  strip .nulTrim [0x00#8] 0 ≠ strip .padCount [0x00#8] 0

/-- R173: the output length of an accepted input in each strip mode, and the bound by `MAX_IN_LEN`, which
is below ENCODE's largest output. -/
def Obligations.DecodeOutputLength : Prop :=
  (∀ cs out : List Byte,
    (decodeBytes .nulTrim cs = .ok out → out.length ≤ 3 * cs.length / 4) ∧
    (decodeBytes .padCount cs = .ok out → out.length = 3 * cs.length / 4 - padCountOf cs)) ∧
  (∀ (mode : StripMode) (m : Nat) (cs out big : List Byte), cs.length ≤ m → decodeBytes mode cs = .ok out →
    out.length ≤ 3 * m / 4 ∧ (1 ≤ m → big.length = m → out.length < (encodeBytes big).length))

/-- R174: unused low bits of the last group need not be zero. They flow into the byte before the padding
bytes, which NUL_TRIM then keeps. With the spec's example "Ux==". -/
def Obligations.UnusedBitsFlowThrough : Prop :=
  (∀ (body : List Byte) (v1 v2 v3 : Index), body.length % 4 = 0 → (∀ c ∈ body, IsValid c) →
    (decodeErrorOf (body ++ [alphaRom v1, alphaRom v2, pad, pad]) = none ∧
      recoverBytes (body ++ [alphaRom v1, alphaRom v2, pad, pad]) =
        recoverBytes body ++ [v1 ++ v2.extractLsb' 4 2, v2.extractLsb' 0 4 ++ 0#4, 0x00#8] ∧
      (v2.extractLsb' 0 4 ≠ 0#4 → decodeBytes .nulTrim (body ++ [alphaRom v1, alphaRom v2, pad, pad]) =
        .ok (recoverBytes body ++ [v1 ++ v2.extractLsb' 4 2, v2.extractLsb' 0 4 ++ 0#4]))) ∧
    (decodeErrorOf (body ++ [alphaRom v1, alphaRom v2, alphaRom v3, pad]) = none ∧
      recoverBytes (body ++ [alphaRom v1, alphaRom v2, alphaRom v3, pad]) =
        recoverBytes body ++
          [v1 ++ v2.extractLsb' 4 2, v2.extractLsb' 0 4 ++ v3.extractLsb' 2 4, v3.extractLsb' 0 2 ++ 0#6] ∧
      (v3.extractLsb' 0 2 ≠ 0#2 → decodeBytes .nulTrim (body ++ [alphaRom v1, alphaRom v2, alphaRom v3, pad]) =
        .ok (recoverBytes body ++
          [v1 ++ v2.extractLsb' 4 2, v2.extractLsb' 0 4 ++ v3.extractLsb' 2 4, v3.extractLsb' 0 2 ++ 0#6])))) ∧
  (decodeBytes .nulTrim [0x55#8, 0x78#8, 0x3D#8, 0x3D#8] = .ok [0x53#8, 0x10#8]) ∧
  (decodeBytes .padCount [0x55#8, 0x78#8, 0x3D#8, 0x3D#8] = .ok [0x53#8])

/-- R185: exactly when the two strip modes agree on an accepted input, with the spec's inputs where they
differ. -/
def Obligations.StripModesAgreeExactlyWhen : Prop :=
  (∀ cs : List Byte, decodeErrorOf cs = none →
    (decodeBytes .nulTrim cs = decodeBytes .padCount cs ↔
      (recoverBytes cs).drop ((recoverBytes cs).length - padCountOf cs) =
          List.replicate (padCountOf cs) 0x00#8 ∧
      ((recoverBytes cs).length = padCountOf cs ∨
        (recoverBytes cs)[(recoverBytes cs).length - padCountOf cs - 1]? ≠ some 0x00#8))) ∧
  (∀ cs ∈ [[0x41#8, 0x41#8, 0x3D#8, 0x3D#8], [0x41#8, 0x41#8, 0x41#8, 0x3D#8], [0x41#8, 0x41#8, 0x41#8, 0x41#8],
      [0x55#8, 0x77#8, 0x41#8, 0x41#8], [0x55#8, 0x77#8, 0x41#8, 0x3D#8], [0x55#8, 0x78#8, 0x3D#8, 0x3D#8]],
    decodeErrorOf cs = none ∧ strip .nulTrim (recoverBytes cs) (padCountOf cs) ≠
      strip .padCount (recoverBytes cs) (padCountOf cs))

/-- R184 of the datapath: decoding an encoding never raises an error, gives the bytes back under
PAD_COUNT, and gives them back without their trailing zeros under NUL_TRIM. -/
def Obligations.CodecRoundTrip : Prop :=
  ∀ b : List Byte,
    decodeBytes .padCount (encodeBytes b) = .ok b ∧
    decodeBytes .nulTrim (encodeBytes b) = .ok (nulTrim b) ∧
    (nulTrim b = b ↔ b = [] ∨ b.getLast? ≠ some 0x00#8)

/-! ### The commands (R120, R160)

`exec` is this hardware's; `execOf p` is a device's with the parameters `p` of R7, so with either value of
`STRIP_MODE` (D12). -/

/-- R120, R130, R131: ENCODE completes on every input that has been written, and this is its whole effect,
on every device.
The result's length fits `OLEN` for every `ILEN` up to a `MAX_IN_LEN` that meets R7's inequality. -/
def Obligations.EncodeCompletes : Prop :=
  ∀ s : State, InputWritten s → ∃ bs, IsInput s bs ∧
    (∃ t, t = { s with
      obuf := encodeBytes bs, olen := BitVec.ofNat 32 (encodeBytes bs).length, errpos := 0#32,
      err := .ok, phase := .done } ∧ exec .encode s = .next t ∧ ∀ p, execOf p .encode s = .next t) ∧
    ∀ m, 4 * ((m + 2) / 3) ≤ 2 ^ 32 - 1 → s.ilen.toNat ≤ m →
      (BitVec.ofNat 32 (encodeBytes bs).length).toNat = (encodeBytes bs).length

/-- R183: a DECODE that passes validation completes with the stripped bytes, in either strip mode, and one
that raises an error completes as R232 says. `CMD`, `ILEN` and `IBUF` are unchanged in both cases. This
hardware's DECODE is the NUL_TRIM one (R180). -/
def Obligations.DecodeCompletes : Prop :=
  ∀ (s : State) (cs : List Byte), IsInput s cs →
    (decodeErrorOf cs = none →
      (∀ p : Params, execOf p .decode s = .next { s with
        obuf := strip p.stripMode (recoverBytes cs) (padCountOf cs),
        olen := BitVec.ofNat 32 (strip p.stripMode (recoverBytes cs) (padCountOf cs)).length, errpos := 0#32,
        err := .ok, phase := .done } ∧
        (BitVec.ofNat 32 (strip p.stripMode (recoverBytes cs) (padCountOf cs)).length).toNat =
          (strip p.stripMode (recoverBytes cs) (padCountOf cs)).length) ∧
      exec .decode s = .next { s with
        obuf := nulTrim (recoverBytes cs), olen := BitVec.ofNat 32 (nulTrim (recoverBytes cs)).length,
        errpos := 0#32, err := .ok, phase := .done }) ∧
    (∀ e, decodeErrorOf cs = some e →
      (∀ p, execOf p .decode s = .next { s with
        obuf := [], olen := 0#32, err := e.code, errpos := BitVec.ofNat 32 e.pos, phase := .done }) ∧
      exec .decode s = .next { s with
        obuf := [], olen := 0#32, err := e.code, errpos := BitVec.ofNat 32 e.pos, phase := .done })

/-- R161, R231 to R234: the whole effect of each error of DECODE, on every device, and when it is raised;
the recorded position is exact. -/
def Obligations.DecodeErrorsComplete : Prop :=
  ∀ (s : State) (cs : List Byte), IsInput s cs →
    (s.ilen.toNat % 4 ≠ 0 → ∃ t, t = { s with
      obuf := [], olen := 0#32, err := .errLength, errpos := 0#32, phase := .done } ∧
      exec .decode s = .next t ∧ ∀ p, execOf p .decode s = .next t) ∧
    (s.ilen.toNat % 4 = 0 → ∀ i, FirstFailure cs i (.char i) → (∃ t, t = { s with
      obuf := [], olen := 0#32, err := .errChar, errpos := BitVec.ofNat 32 i, phase := .done } ∧
      exec .decode s = .next t ∧ ∀ p, execOf p .decode s = .next t) ∧
      (BitVec.ofNat 32 i).toNat = i) ∧
    (s.ilen.toNat % 4 = 0 → ∀ i, FirstFailure cs i (.pad i) → (∃ t, t = { s with
      obuf := [], olen := 0#32, err := .errPad, errpos := BitVec.ofNat 32 i, phase := .done } ∧
      exec .decode s = .next t ∧ ∀ p, execOf p .decode s = .next t) ∧
      (BitVec.ofNat 32 i).toNat = i)

/-- R82, R239: a command faults exactly when a byte of its input has not been written, on every device, for
both values of `MODE` and before any error code; otherwise it has a next state. -/
def Obligations.UnwrittenInputFaults : Prop :=
  ∀ (i : Instr) (s : State),
    (exec i s = .fault .unwrittenInput ↔ ∃ a < s.ilen.toNat, s.ibuf.read a = none) ∧
    ((∃ t, exec i s = .next t) ↔ InputWritten s) ∧
    ∀ p, (execOf p i s = .fault .unwrittenInput ↔ ∃ a < s.ilen.toNat, s.ibuf.read a = none) ∧
      ((∃ t, execOf p i s = .next t) ↔ InputWritten s)

/-- R129, R162: both commands accept the empty input, whatever `IBUF` holds, with an empty result and no
error, on every device. -/
def Obligations.EmptyInputCompletes : Prop :=
  ∀ (i : Instr) (s : State), s.ilen = 0#32 → ∃ t,
    t = { s with obuf := [], olen := 0#32, errpos := 0#32, err := .ok, phase := .done } ∧
    exec i s = .next t ∧ ∀ p, execOf p i s = .next t

/-- R134: ENCODE's result depends only on `ILEN` and `IBUF[0..ILEN)`: not even on the device's parameters. -/
def Obligations.EncodeDependsOnInputOnly : Prop :=
  ∀ s t s' : State, s.ilen = t.ilen → (∀ a < s.ilen.toNat, s.ibuf.read a = t.ibuf.read a) →
    exec .encode s = .next s' → ∃ t', exec .encode t = .next t' ∧ SameResult s' t' ∧
      ∀ p, execOf p .encode t = .next t'

/-- R187: DECODE's result depends only on `ILEN`, `IBUF[0..ILEN)` and the strip mode. -/
def Obligations.DecodeDependsOnInputOnly : Prop :=
  ∀ s t s' : State, s.ilen = t.ilen → (∀ a < s.ilen.toNat, s.ibuf.read a = t.ibuf.read a) →
    (∀ p q : Params, p.stripMode = q.stripMode → execOf p .decode s = .next s' →
      ∃ t', execOf q .decode t = .next t' ∧ SameResult s' t') ∧
    (exec .decode s = .next s' → ∃ t', exec .decode t = .next t' ∧ SameResult s' t')

/-- R130, R183, R232: the frame of ENCODE and DECODE on every device. Neither stores to `IBUF`: every address reads as
before. `CMD` and `ILEN` are unchanged, and so are the host's transactions and replies. -/
def Obligations.CommandFrame : Prop :=
  ∀ (p : Params) (i : Instr) (s t : State), exec i s = .next t ∨ execOf p i s = .next t →
    t.cmd = s.cmd ∧ t.ilen = s.ilen ∧ (∀ a, t.ibuf.read a = s.ibuf.read a) ∧ t.ibuf = s.ibuf ∧
    t.hostQueue = s.hostQueue ∧ t.replies = s.replies ∧ t.coreLag = s.coreLag ∧ t.issued = s.issued

/-- R27: what `ERRPOS` holds after each outcome on every device and after reset, and that it is not read
while BUSY. The offending byte is the one at the first position of the input that fails validation: an
INVALID byte, or a `PAD` outside a trailing position. -/
def Obligations.ErrposNamesTheOffendingByte : Prop :=
  (∀ (p : Params) (i : Instr) (s t : State), exec i s = .next t ∨ execOf p i s = .next t →
    (t.err = .errChar → ∃ cs, IsInput s cs ∧ FirstFailure cs t.errpos.toNat (.char t.errpos.toNat) ∧
      ∃ c, t.errpos.toNat < s.ilen.toNat ∧ s.ibuf.read t.errpos.toNat = some c ∧ classify c = .invalid) ∧
    (t.err = .errPad → ∃ cs, IsInput s cs ∧ FirstFailure cs t.errpos.toNat (.pad t.errpos.toNat) ∧
      t.errpos.toNat < s.ilen.toNat ∧ s.ibuf.read t.errpos.toNat = some pad ∧
      ¬ LegalPadAt cs t.errpos.toNat) ∧
    (t.err = .errLength ∨ t.err = .ok → t.errpos = 0#32)) ∧
  State.reset.errpos = 0#32 ∧
  (∀ (p : Params) (s : State), s.phase = .busy → hostAct p (.readReg 4) s = .refused .readWhileBusy) ∧
  (∀ (p : Params) (v : Word) (s : State), hostAct p (.writeReg 4 v) s = .refused .readOnly)

/-- R184, R277: the round trip on a device with either strip mode, for every input whose encoding fits
`OLEN`. ENCODE runs in `s`; `u` is any later state whose input is what the host copied from `OBUF`; DECODE
then gives the bytes back: all of them under PAD_COUNT, and without their trailing zeros under NUL_TRIM,
which this hardware has. -/
def Obligations.CoreRoundTrip : Prop :=
  ∀ (p : Params) (s t u : State) (b : List Byte),
    IsInput s b → 4 * ((s.ilen.toNat + 2) / 3) ≤ 2 ^ 32 - 1 →
    exec .encode s = .next t ∨ execOf p .encode s = .next t →
    u.ilen = t.olen → (∀ a < t.olen.toNat, u.ibuf.read a = t.obuf[a]?) →
    (p.stripMode = .padCount → ∃ v, execOf p .decode u = .next v ∧ v.err = .ok ∧ v.phase = .done ∧
      v.obuf = b ∧ v.olen.toNat = b.length) ∧
    (p.stripMode = .nulTrim → ∃ v, execOf p .decode u = .next v ∧ v.err = .ok ∧ v.phase = .done ∧
      v.obuf = nulTrim b ∧ v.olen.toNat = (nulTrim b).length ∧ (v.obuf = b ↔ b = [] ∨ b.getLast? ≠ some 0x00#8)) ∧
    (∃ v, exec .decode u = .next v ∧ v.err = .ok ∧ v.phase = .done ∧ v.obuf = nulTrim b ∧
      (v.obuf = b ↔ b = [] ∨ b.getLast? ≠ some 0x00#8))

/-! ### The host's accesses (20_memory.md) -/

/-- R65: a host byte write to `IBUF`, in every case, with the address bound said for a natural `MAX_IN_LEN`. -/
def Obligations.HostWritesIbuf : Prop :=
  (∀ m h a, hasAddress (.bounded m h) a = true ↔ a < m) ∧
  ∀ (p : Params) (a : Nat) (v : Byte) (s : State),
    (hasAddress p.maxInLen a = false → hostAct p (.writeIbuf a v) s = .refused .addressOutOfRange) ∧
    (hasAddress p.maxInLen a = true → s.phase = .busy →
      hostAct p (.writeIbuf a v) s = .refused .writeWhileBusy) ∧
    (hasAddress p.maxInLen a = true → s.phase ≠ .busy →
      ∃ m, hostAct p (.writeIbuf a v) s = .next { s with ibuf := m } ∧ m.read a = some v ∧
        (∀ k, k ≠ a → m.read k = s.ibuf.read k) ∧ (s.ibuf.wf = true → m.wf = true))

/-- R66: a host byte read from `IBUF`, allowed in every phase; it changes nothing but the replies. -/
def Obligations.HostReadsIbuf : Prop :=
  ∀ (p : Params) (a : Nat) (s : State),
    (hasAddress p.maxInLen a = false → hostAct p (.readIbuf a) s = .refused .addressOutOfRange) ∧
    (hasAddress p.maxInLen a = true → s.ibuf.read a = none →
      hostAct p (.readIbuf a) s = .refused .readUnwritten) ∧
    (∀ b, hasAddress p.maxInLen a = true → s.ibuf.read a = some b →
      hostAct p (.readIbuf a) s = .next { s with replies := .ibuf a b :: s.replies })

/-- R67: a host byte read from `OBUF`, whose length is `OLEN`, and the refused host write to it. -/
def Obligations.HostReadsObuf : Prop :=
  ∀ (p : Params) (a : Nat) (v : Byte) (s : State), s.obuf.length = s.olen.toNat →
    (s.phase = .busy → hostAct p (.readObuf a) s = .refused .readWhileBusy) ∧
    (s.phase ≠ .busy → s.olen.toNat ≤ a → hostAct p (.readObuf a) s = .refused .addressOutOfRange) ∧
    (s.phase ≠ .busy → a < s.olen.toNat → ∃ b, s.obuf[a]? = some b ∧
      hostAct p (.readObuf a) s = .next { s with replies := .obuf a b :: s.replies }) ∧
    hostAct p (.writeObuf a v) s = .refused .readOnly

/-- R68: a host register write, in every case and in the order of the checks, for a `MAX_IN_LEN` that is a
natural. `STATUS.ERR`, `OLEN`, `ERRPOS` and `OBUF` keep their values when a command starts, and the core
step then enabled is ENCODE's or DECODE's by `MODE`. How many host actions come before it is free (log 3),
so nothing is said of `coreLag` and `issued`. -/
def Obligations.HostWritesRegister : Prop :=
  ∀ (m : Nat) (h : 4 * ((m + 2) / 3) ≤ 2 ^ 32 - 1) (mode : StripMode) (r : Nat) (v : Word) (s : State),
    (6 ≤ r → hostAct ⟨.bounded m h, mode⟩ (.writeReg r v) s = .refused .noSuchRegister) ∧
    (r = 1 ∨ r = 3 ∨ r = 4 ∨ r = 5 → hostAct ⟨.bounded m h, mode⟩ (.writeReg r v) s = .refused .readOnly) ∧
    (r = 0 ∨ r = 2 → s.phase = .busy →
      hostAct ⟨.bounded m h, mode⟩ (.writeReg r v) s = .refused .writeWhileBusy) ∧
    (r = 2 → s.phase ≠ .busy → m < v.toNat →
      hostAct ⟨.bounded m h, mode⟩ (.writeReg r v) s = .refused .lengthOutOfRange) ∧
    (r = 2 → s.phase ≠ .busy → v.toNat ≤ m →
      hostAct ⟨.bounded m h, mode⟩ (.writeReg r v) s = .next { s with ilen := v }) ∧
    (r = 0 → s.phase ≠ .busy → v ≠ 0x00000000#32 → v ≠ 0x00000001#32 →
      hostAct ⟨.bounded m h, mode⟩ (.writeReg r v) s = .refused .reservedCommand) ∧
    (r = 0 → s.phase ≠ .busy → v = 0x00000000#32 ∨ v = 0x00000001#32 → ∃ (lag n : Nat) (t : State),
      t = { s with cmd := v, phase := .busy, coreLag := lag, issued := n } ∧
      hostAct ⟨.bounded m h, mode⟩ (.writeReg r v) s = .next t ∧
      (v = 0x00000000#32 → coreStepOf ⟨.bounded m h, mode⟩ t = execOf ⟨.bounded m h, mode⟩ .encode t ∧
        coreStep t = exec .encode t) ∧
      (v = 0x00000001#32 → coreStepOf ⟨.bounded m h, mode⟩ t = execOf ⟨.bounded m h, mode⟩ .decode t ∧
        coreStep t = exec .decode t))

/-- R61 and log 2: with an unbounded `MAX_IN_LEN` every natural is an address of `IBUF` (R61), `CMD` and
the read-only registers answer as with a bounded one, and a write to `ILEN` is accepted exactly where R7's
inequality holds of the length itself, which is the model's own reading (log 2, DEDUCED). -/
def Obligations.UnboundedCapacity : Prop :=
  (∀ a, hasAddress .unbounded a = true) ∧
  ∀ (m : Nat) (h : 4 * ((m + 2) / 3) ≤ 2 ^ 32 - 1) (mode : StripMode) (r : Nat) (v : Word) (s : State),
    (r ≠ 2 → hostAct ⟨.unbounded, mode⟩ (.writeReg r v) s = hostAct ⟨.bounded m h, mode⟩ (.writeReg r v) s) ∧
    (s.phase = .busy → hostAct ⟨.unbounded, mode⟩ (.writeReg 2 v) s = .refused .writeWhileBusy) ∧
    (s.phase ≠ .busy → 4 * ((v.toNat + 2) / 3) ≤ 2 ^ 32 - 1 →
      hostAct ⟨.unbounded, mode⟩ (.writeReg 2 v) s = .next { s with ilen := v }) ∧
    (s.phase ≠ .busy → ¬ 4 * ((v.toNat + 2) / 3) ≤ 2 ^ 32 - 1 →
      hostAct ⟨.unbounded, mode⟩ (.writeReg 2 v) s = .refused .lengthOutOfRange)

/-- R24, R28, R69: a host register read, in every case; `STATUS` by its fields; `CONFIG` by the strip
mode. A read changes nothing but the replies (R74). -/
def Obligations.HostReadsRegister : Prop :=
  ∀ (p : Params) (r : Nat) (s : State),
    (6 ≤ r → hostAct p (.readReg r) s = .refused .noSuchRegister) ∧
    (r = 3 ∨ r = 4 → s.phase = .busy → hostAct p (.readReg r) s = .refused .readWhileBusy) ∧
    (r = 0 → hostAct p (.readReg r) s = .next { s with replies := .reg .cmd s.cmd :: s.replies }) ∧
    (r = 1 → ∃ w : Word, hostAct p (.readReg r) s = .next { s with replies := .reg .status w :: s.replies } ∧
      w.toNat = (match s.phase with | .idle => 0 | .busy => 1 | .done => 2) +
        4 * (match s.err with | .ok => 0 | .errLength => 1 | .errChar => 2 | .errPad => 3)) ∧
    (r = 2 → hostAct p (.readReg r) s = .next { s with replies := .reg .ilen s.ilen :: s.replies }) ∧
    (r = 3 → s.phase ≠ .busy →
      hostAct p (.readReg r) s = .next { s with replies := .reg .olen s.olen :: s.replies }) ∧
    (r = 4 → s.phase ≠ .busy →
      hostAct p (.readReg r) s = .next { s with replies := .reg .errpos s.errpos :: s.replies }) ∧
    (r = 5 → p.stripMode = .nulTrim →
      hostAct p (.readReg r) s = .next { s with replies := .reg .config 0x00000000#32 :: s.replies }) ∧
    (r = 5 → p.stripMode = .padCount →
      hostAct p (.readReg r) s = .next { s with replies := .reg .config 0x00000001#32 :: s.replies })

/-- R78, R275: while BUSY no host action but reset changes a command's input or anything else of the
block. -/
def Obligations.BusyFixesTheInput : Prop :=
  ∀ (p : Params) (a : HostAction) (s t : State), s.phase = .busy → a ≠ .reset → hostAct p a s = .next t →
    t = { s with replies := t.replies }

/-! ### Reset (10_state.md R40, 70_reset_and_hazards.md R270) -/

/-- R270: reset in any phase gives every register its value of R40 and clears every mark. A command in
progress is abandoned: no core step is pending after it, whatever the host does next is the host's step. -/
def Obligations.ResetEventRestoresTheBlock : Prop :=
  ∀ (p : Params) (s : State), ∃ t, hostAct p .reset s = .next t ∧
    t.cmd = 0#32 ∧ t.phase = .idle ∧ t.err = .ok ∧ t.ilen = 0#32 ∧ t.olen = 0#32 ∧ t.errpos = 0#32 ∧
    t.obuf = [] ∧ (∀ a, t.ibuf.read a = none) ∧ coreTurn p t = false

/-- R40: the state after reset, register by register, as the host reads it. -/
def Obligations.ResetState : Prop :=
  State.reset.cmd = 0x00000000#32 ∧ State.reset.statusWord = 0x00000000#32 ∧
  State.reset.phase = .idle ∧ State.reset.err = .ok ∧ State.reset.ilen = 0#32 ∧
  State.reset.olen = 0#32 ∧ State.reset.obuf = [] ∧ State.reset.errpos = 0#32 ∧
  configWord Config.stripMode = 0x00000000#32 ∧ ∀ a, State.reset.ibuf.read a = none

/-! ### Steps and whole-machine rules

`stepOf p` is a step of a device with the parameters `p` of R7, in either strip mode (D12); `step` is this
hardware's. `ThisHardwareIsADevice` says that what holds of every device holds of this hardware. -/

/-- R68, R76, R281: when it is the core's turn, the step is `exec` of the command decoded from `CMD`, and
otherwise it is the host's. The core's turn is: BUSY, and the free number of host actions has run out, or
the host has nothing to do, or its next action has no step (log 3, log 7). Said of this hardware, then of
every device. -/
def Obligations.StepRunsPendingCommand : Prop :=
  (∀ s : State,
    (∀ i, decodeCommand s.cmd = .ok i → s.phase = .busy →
      s.coreLag = 0 ∨ s.hostQueue = [] ∨ (∃ r, hostStep Config.params s = .refused r) →
      step s = exec i s) ∧
    (s.phase ≠ .busy → step s = hostStep Config.params s) ∧
    (∀ a rest, s.hostQueue = a :: rest → s.coreLag ≠ 0 → (∀ r, hostStep Config.params s ≠ .refused r) →
      step s = hostAct Config.params a { s with hostQueue := rest, coreLag := s.coreLag - 1 })) ∧
  (∀ (p : Params) (s : State),
    (∀ i, decodeCommand s.cmd = .ok i → s.phase = .busy →
      s.coreLag = 0 ∨ s.hostQueue = [] ∨ (∃ r, hostStep p s = .refused r) → stepOf p s = execOf p i s) ∧
    (s.phase ≠ .busy → stepOf p s = hostStep p s) ∧
    (∀ a rest, s.hostQueue = a :: rest → s.coreLag ≠ 0 → (∀ r, hostStep p s ≠ .refused r) →
      stepOf p s = hostAct p a { s with hostQueue := rest, coreLag := s.coreLag - 1 }))

/-- R68, R91: the state with a command's word pending runs that command in its next step, whatever the
host has queued (log 6), on this hardware and on every device. -/
def Obligations.PendingWordRunsNext : Prop :=
  ∀ (s : State) (i : Instr),
    step (s.withFetchWord 32 (encodeCommand i).toNat) =
      exec i { s with cmd := encodeCommand i, phase := .busy, coreLag := 0 } ∧
    ∀ p, stepOf p (s.withFetchWord 32 (encodeCommand i).toNat) =
      execOf p i { s with cmd := encodeCommand i, phase := .busy, coreLag := 0 }

/-- R38: on every device the phase moves only by reset, by a legal write to `CMD`, and by a core step. -/
def Obligations.PhaseMovesOnlyAsListed : Prop :=
  ∀ (p : Params) (s t : State), stepOf p s = .next t →
    t.phase = s.phase ∨
    (t.phase = .idle ∧ s.hostQueue.head? = some .reset) ∨
    (s.phase ≠ .busy ∧ t.phase = .busy ∧ ∃ v i, s.hostQueue.head? = some (.writeReg 0 v) ∧
      decodeCommand v = .ok i) ∨
    (s.phase = .busy ∧ t.phase = .done ∧ coreTurn p s = true ∧
      ∃ i, decodeCommand s.cmd = .ok i ∧ execOf p i s = .next t)

/-- R29: on every device `STATUS.ERR` is written by a command completion and by reset alone; ENCODE always
writes OK; no command reads it. -/
def Obligations.ErrWrittenOnlyByCompletion : Prop :=
  (∀ (p : Params) (s t : State), stepOf p s = .next t → t.err ≠ s.err →
    s.hostQueue.head? = some .reset ∨
    (coreTurn p s = true ∧ ∃ i, decodeCommand s.cmd = .ok i ∧ execOf p i s = .next t)) ∧
  (∀ (p : Params) (s t : State), exec .encode s = .next t ∨ execOf p .encode s = .next t → t.err = .ok) ∧
  (∀ (p : Params) (i : Instr) (s t : State) (e : ErrCode),
    (exec i s = .next t → exec i { s with err := e } = .next t) ∧
    (execOf p i s = .next t → execOf p i { s with err := e } = .next t))

/-- R36, R37, R279: on every device `IBUF` changes only by a host byte write, at that one address, and by
reset; `OBUF` and `OLEN` change only by a command completion and by reset. -/
def Obligations.BuffersWrittenOnlyAsListed : Prop :=
  ∀ (p : Params) (s t : State), stepOf p s = .next t →
    (∀ k, t.ibuf.read k ≠ s.ibuf.read k →
      s.hostQueue.head? = some .reset ∨
        (s.phase ≠ .busy ∧ ∃ v, s.hostQueue.head? = some (.writeIbuf k v) ∧ t.ibuf.read k = some v)) ∧
    (t.obuf ≠ s.obuf ∨ t.olen ≠ s.olen →
      s.hostQueue.head? = some .reset ∨
      (coreTurn p s = true ∧ ∃ i, decodeCommand s.cmd = .ok i ∧ execOf p i s = .next t))

/-- R82: on every device a step faults exactly when it is the core's turn and its command's input holds an
unwritten byte. -/
def Obligations.StepFaultsExactlyWhen : Prop :=
  ∀ (p : Params) (s : State) (f : Fault), stepOf p s = .fault f ↔
    f = .unwrittenInput ∧ coreTurn p s = true ∧ (∃ i, decodeCommand s.cmd = .ok i) ∧
    ∃ a < s.ilen.toNat, s.ibuf.read a = none

/-- The invariant of every device holds after reset. -/
def Obligations.InvariantAtReset : Prop := ∀ p : Params, Inv p State.reset

/-- The invariant of the block's registers and buffers is kept by every step, on every device and on this
hardware: reserved bits of `CMD` read 0, `ILEN` is legal, `IBUF` keeps its form and bound, `OBUF` has
`OLEN` bytes, an error leaves no output, `ERRPOS` is 0 after OK and ERR_LENGTH, IDLE holds reset values. -/
def Obligations.InvariantKeptByStep : Prop :=
  (∀ (p : Params) (s t : State), Inv p s → stepOf p s = .next t → Inv p t) ∧
  (∀ s t : State, Inv Config.params s → step s = .next t → Inv Config.params t)

/-- R281: on every device a pending command is performed after finitely many host actions unless reset
intervenes, on the input it had when it was issued, and where that input is written it is DONE then. The
number of host actions is the model's free value (log 3), and a host action refused for any reason while
BUSY gives the core its turn (log 7). -/
def Obligations.PendingCommandIsPerformed : Prop :=
  ∀ (p : Params) (s : State) (i : Instr), s.phase = .busy → decodeCommand s.cmd = .ok i →
    (∀ a ∈ s.hostQueue, a ≠ .reset) →
    ∃ k ≤ s.coreLag, ∃ t, Host.Core.run (device p) k s = .next t ∧
      t.phase = .busy ∧ t.cmd = s.cmd ∧ t.ilen = s.ilen ∧ t.ibuf = s.ibuf ∧
      stepOf p t = execOf p i t ∧
      (InputWritten s → ∃ u, stepOf p t = .next u ∧ u.phase = .done)

/-- R276, R281: on every device any number of reads of `STATUS` may come before the core step (log 3), and
each returns BUSY with the previous command's `ERR`. -/
def Obligations.PollsBeforeCompletionReadBusy : Prop :=
  ∀ (p : Params) (n : Nat) (s : State) (rest : List HostAction), s.phase = .busy → n ≤ s.coreLag →
    s.hostQueue = List.replicate n (.readReg 1) ++ rest →
    Host.Core.run (device p) n s = .next { s with
      hostQueue := rest, coreLag := s.coreLag - n,
      replies := List.replicate n (.reg .status (0#28 ++ s.err.code ++ 1#2)) ++ s.replies }

/-- R7, R180, D12: this hardware is the device whose parameters are its own, with NUL_TRIM: its commands,
its steps and the machine the host runs. -/
def Obligations.ThisHardwareIsADevice : Prop :=
  Config.params.stripMode = .nulTrim ∧
  (∀ (i : Instr) (s : State), exec i s = execOf Config.params i s) ∧
  (∀ s : State, step s = stepOf Config.params s) ∧
  Sys2Proof.core = device Config.params

/-- R7, R28, R180: the strip mode reaches the step and is the one `CONFIG` shows. On a device that reads
`CONFIG` as 0 a pending DECODE of an accepted input leaves the bytes NUL_TRIM leaves, and on one that reads
it as 1 those PAD_COUNT leaves. With the spec's example "UwAA", 53 on this hardware and 53 00 00 on the
other device. -/
def Obligations.StepStripsAsConfigShows : Prop :=
  (∀ (p : Params) (s : State) (cs : List Byte), IsInput s cs → decodeErrorOf cs = none →
    ∃ t, stepOf p (s.withFetchWord 32 1) = .next t ∧ t.phase = .done ∧ t.err = .ok ∧
      (hostAct p (.readReg 5) t = .next { t with replies := .reg .config 0x00000000#32 :: t.replies } →
        t.obuf = nulTrim (recoverBytes cs)) ∧
      (hostAct p (.readReg 5) t = .next { t with replies := .reg .config 0x00000001#32 :: t.replies } →
        t.obuf = (recoverBytes cs).take ((recoverBytes cs).length - padCountOf cs))) ∧
  (∀ s : State, IsInput s [0x55#8, 0x77#8, 0x41#8, 0x41#8] →
    (∃ t, step (s.withFetchWord 32 1) = .next t ∧ t.obuf = [0x53#8]) ∧
    ∀ p : Params, p.stripMode = .padCount →
      ∃ t, stepOf p (s.withFetchWord 32 1) = .next t ∧ t.obuf = [0x53#8, 0x00#8, 0x00#8])
end

