-- ==== Sys2Proof/Laws/Rom.lean ====
section
/-! SUPPORT. The ROMs as DEC and ENC use them: what an alphabet byte and the padding byte classify as. -/

namespace Sys2Proof.Machine

@[simp] theorem classify_alphaRom : ∀ v : Index, classify (alphaRom v) = .valid v := by decide

@[simp] theorem charIndex_alphaRom : ∀ v : Index, charIndex (alphaRom v) = v := by decide

@[simp] theorem classify_pad : classify pad = .pad := by decide

@[simp] theorem charIndex_pad : charIndex pad = 0#6 := by decide

theorem alphaRom_ne_pad : ∀ v : Index, alphaRom v ≠ pad := by decide

/-- The only byte of class PAD is `PAD` (R33). -/
theorem classify_eq_pad : ∀ c : Byte, classify c = .pad ↔ c = pad := by decide

/-- A byte of class VALID is the alphabet's byte at its index (R35). -/
theorem alphaRom_of_valid : ∀ (c : Byte) (v : Index), classify c = .valid v → c = alphaRom v := by
  have key : ∀ c : Byte, ∀ v ∈ (match classify c with | .valid v => [v] | _ => []), c = alphaRom v := by decide
  intro c v h
  exact key c v (by simp [h])

end Sys2Proof.Machine
end

