-- ==== Sys2Proof/Laws/Codec.lean ====
section
/-! SUPPORT. What the datapath functions of ENC and DEC do, group by group: the lemmas a proof by
induction over groups cites. -/

namespace Sys2Proof.Machine

/-! ### The packers -/

theorem unpack_pack (b1 b2 b3 : Byte) : unpack (pack b1 b2 b3) = ⟨b1, b2, b3⟩ := by
  refine Octets.ext ?_ ?_ ?_ <;>
  · apply BitVec.eq_of_getElem_eq
    intro i hi
    simp only [unpack, pack, BitVec.getElem_extractLsb', BitVec.getLsbD_append, BitVec.getLsbD_extractLsb']
    rcases i with _|_|_|_|_|_|_|_|i <;> first | omega | simp [BitVec.getLsbD_eq_getElem]

theorem pack_unpack (v : Sextets) : pack (unpack v).y1 (unpack v).y2 (unpack v).y3 = v := by
  refine Sextets.ext ?_ ?_ ?_ ?_ <;>
  · apply BitVec.eq_of_getElem_eq
    intro i hi
    simp only [unpack, pack, BitVec.getElem_extractLsb', BitVec.getLsbD_append, BitVec.getLsbD_extractLsb']
    rcases i with _|_|_|_|_|_|i <;> first | omega | simp [BitVec.getLsbD_eq_getElem]

/-! ### ENCODE -/

/-- A group of four more characters in front does not change the padding (R128). -/
theorem padOut_cons4 (c1 c2 c3 c4 : Byte) (out : List Byte) :
    padOut (c1 :: c2 :: c3 :: c4 :: out) = c1 :: c2 :: c3 :: c4 :: padOut out := by
  have h : (c1 :: c2 :: c3 :: c4 :: out).length % 4 = out.length % 4 := by
    simp only [List.length_cons]; omega
  unfold padOut
  rw [h]
  split
  · simp
  · split <;> simp

theorem encodeBytes_nil : encodeBytes [] = [] := by simp [encodeBytes, emitChars, padOut]

/-- ENCODE of a one-byte tail (R125, R128). -/
theorem encodeBytes_one (b1 : Byte) :
    encodeBytes [b1] = [alphaRom (pack b1 0x00#8 0x00#8).i0, alphaRom (pack b1 0x00#8 0x00#8).i1, pad, pad] := by
  simp [encodeBytes, emitChars, padOut]

/-- ENCODE of a two-byte tail (R126, R128). -/
theorem encodeBytes_two (b1 b2 : Byte) :
    encodeBytes [b1, b2] = [alphaRom (pack b1 b2 0x00#8).i0, alphaRom (pack b1 b2 0x00#8).i1,
      alphaRom (pack b1 b2 0x00#8).i2, pad] := by
  simp [encodeBytes, emitChars, padOut]

/-- ENCODE of a full group, then the rest (R121, R122). -/
theorem encodeBytes_cons3 (b1 b2 b3 : Byte) (rest : List Byte) :
    encodeBytes (b1 :: b2 :: b3 :: rest) =
      alphaRom (pack b1 b2 b3).i0 :: alphaRom (pack b1 b2 b3).i1 :: alphaRom (pack b1 b2 b3).i2 ::
        alphaRom (pack b1 b2 b3).i3 :: encodeBytes rest := by
  rw [encodeBytes, emitChars, padOut_cons4]
  rfl

/-- Induction over an ENCODE input: the empty input, the two tails, and a full group in front. -/
theorem byteGroup_induction {P : List Byte → Prop} (nil : P []) (one : ∀ b1, P [b1])
    (two : ∀ b1 b2, P [b1, b2]) (cons3 : ∀ b1 b2 b3 rest, P rest → P (b1 :: b2 :: b3 :: rest)) :
    ∀ bs, P bs := by
  intro bs
  induction bs using emitChars.induct with
  | case1 => exact nil
  | case2 b1 => exact one b1
  | case3 b1 b2 => exact two b1 b2
  | case4 b1 b2 b3 rest ih => exact cons3 b1 b2 b3 rest ih

/-- Induction over a DECODE input whose length is a multiple of 4, for `induction cs, h using`. -/
theorem charGroup_induction {P : (cs : List Byte) → cs.length % 4 = 0 → Prop} (nil : P [] rfl)
    (cons4 : ∀ c1 c2 c3 c4 rest (hr : rest.length % 4 = 0) (h : (c1 :: c2 :: c3 :: c4 :: rest).length % 4 = 0),
      P rest hr → P (c1 :: c2 :: c3 :: c4 :: rest) h) :
    ∀ cs h, P cs h
  | [], _ => nil
  | [_], h => absurd h (by simp)
  | [_, _], h => absurd h (by simp)
  | [_, _, _], h => absurd h (by simp)
  | c1 :: c2 :: c3 :: c4 :: rest, h => by
    have hr : rest.length % 4 = 0 := by simp only [List.length_cons] at h; omega
    exact cons4 c1 c2 c3 c4 rest hr h (charGroup_induction nil cons4 rest hr)

/-! ### DECODE -/

theorem recoverBytes_cons4 (c1 c2 c3 c4 : Byte) (rest : List Byte) :
    recoverBytes (c1 :: c2 :: c3 :: c4 :: rest) =
      (unpack (groupIndices c1 c2 c3 c4)).y1 :: (unpack (groupIndices c1 c2 c3 c4)).y2 ::
        (unpack (groupIndices c1 c2 c3 c4)).y3 :: recoverBytes rest := rfl

/-- Validation steps over a VALID byte (R164, R166). -/
theorem scanFrom_valid (i : Nat) (c : Byte) (cs : List Byte) (v : Index) (h : classify c = .valid v) :
    scanFrom i (c :: cs) = scanFrom (i + 1) cs := by simp only [scanFrom, h]

/-- Validation stops at an INVALID byte (R164). -/
theorem scanFrom_invalid (i : Nat) (c : Byte) (cs : List Byte) (h : classify c = .invalid) :
    scanFrom i (c :: cs) = some (.char i) := by simp only [scanFrom, h]

/-- Validation of a `PAD` byte (R165, R166). -/
theorem scanFrom_pad (i : Nat) (cs : List Byte) :
    scanFrom i (pad :: cs) = if legalPadTail (pad :: cs) then scanFrom (i + 1) cs else some (.pad i) := by
  simp only [scanFrom, classify_pad]

/-- An error of validation never carries ERR_LENGTH, and its position is one of the input's. -/
theorem scanFrom_some (i : Nat) (cs : List Byte) (e : DecodeError) (h : scanFrom i cs = some e) :
    (∃ k, i ≤ k ∧ k < i + cs.length ∧ (e = .char k ∨ e = .pad k)) := by
  induction cs generalizing i with
  | nil => simp [scanFrom] at h
  | cons c cs ih =>
    have later : scanFrom (i + 1) cs = some e →
        ∃ k, i ≤ k ∧ k < i + (c :: cs).length ∧ (e = .char k ∨ e = .pad k) := fun h' => by
      obtain ⟨k, h1, h2, h3⟩ := ih (i + 1) h'
      exact ⟨k, by omega, by simp only [List.length_cons]; omega, h3⟩
    cases hc : classify c with
    | invalid =>
      rw [scanFrom_invalid i c cs hc] at h
      exact ⟨i, le_refl i, by simp, .inl (by simpa using h.symm)⟩
    | valid v =>
      rw [scanFrom_valid i c cs v hc] at h
      exact later h
    | pad =>
      have hp : c = pad := (classify_eq_pad c).mp hc
      subst hp
      rw [scanFrom_pad] at h
      split at h
      · exact later h
      · exact ⟨i, le_refl i, by simp, .inr (by simpa using h.symm)⟩

/-- NUL_TRIM of a sequence with a zero byte at its end. -/
theorem nulTrim_append_zero (raw : List Byte) : nulTrim (raw ++ [0x00#8]) = nulTrim raw := by
  simp [nulTrim]

/-- NUL_TRIM keeps a sequence whose last byte is not zero. -/
theorem nulTrim_append_nonzero (raw : List Byte) (b : Byte) (h : b ≠ 0x00#8) :
    nulTrim (raw ++ [b]) = raw ++ [b] := by
  simp [nulTrim, h]

end Sys2Proof.Machine
end

