-- ==== Sys2Proof/Laws/Memory.lean ====
section
/-! SUPPORT. `IBUF`: read after write, the canonical form, the address bound, and the input operand. -/

namespace Sys2Proof.Machine

@[simp] theorem read_nil (k : Nat) : Memory.read [] k = none := rfl

theorem read_write_same (m : Memory) (k : Nat) (v : Byte) : (m.write k v).read k = some v := by
  induction m with
  | nil => simp [Memory.write, Memory.read]
  | cons c m ih =>
    obtain ⟨a, b⟩ := c
    by_cases h1 : k < a
    · simp [Memory.write, Memory.read, h1]
    · by_cases h2 : a = k <;> simp [Memory.write, Memory.read, h1, h2, ih]

theorem read_write_other (m : Memory) {k j : Nat} (v : Byte) (h : j ≠ k) :
    (m.write k v).read j = m.read j := by
  induction m with
  | nil => simp [Memory.write, Memory.read, h.symm]
  | cons c m ih =>
    obtain ⟨a, b⟩ := c
    by_cases h1 : k < a
    · simp [Memory.write, Memory.read, h1, h.symm]
    · by_cases h2 : a = k
      · subst h2
        simp [Memory.write, Memory.read, h.symm]
      · simp [Memory.write, Memory.read, h1, h2, ih]

theorem all_write (m : Memory) (k : Nat) (v : Byte) (f : Host.Cell → Bool) (hm : m.all f = true)
    (hk : f (k, v) = true) : (m.write k v).all f = true := by
  induction m with
  | nil => simp [Memory.write, hk]
  | cons c m ih =>
    obtain ⟨a, b⟩ := c
    rw [List.all_cons, Bool.and_eq_true] at hm
    by_cases h1 : k < a
    · simp only [Memory.write, h1, if_true, List.all_cons, hk, hm.1, hm.2, Bool.and_self]
    · by_cases h2 : a = k
      · subst h2
        simp only [Memory.write, h1, if_true, if_false, List.all_cons, hk, hm.2, Bool.and_self]
      · simp only [Memory.write, h1, h2, if_false, List.all_cons, hm.1, ih hm.2, Bool.and_self]

/-- A write keeps the canonical form. -/
theorem write_wf (m : Memory) (k : Nat) (v : Byte) (h : m.wf = true) : (m.write k v).wf = true := by
  induction m with
  | nil => simp [Memory.write, Memory.wf]
  | cons c m ih =>
    obtain ⟨a, b⟩ := c
    simp only [Memory.wf, Bool.and_eq_true] at h
    by_cases h1 : k < a
    · simp only [Memory.write, h1, if_true, Memory.wf, List.all_cons, decide_true, Bool.true_and,
        Bool.and_eq_true, h.1, h.2, and_true]
      rw [List.all_eq_true] at *
      intro c hc
      have := h.1 c hc
      simp only [decide_eq_true_eq] at this ⊢
      omega
    · by_cases h2 : a = k
      · subst h2
        simp only [Memory.write, h1, if_true, if_false, Memory.wf, h.1, h.2, Bool.and_self]
      · simp only [Memory.write, h1, h2, if_false, Memory.wf, ih h.2, Bool.and_true]
        exact all_write m k v _ h.1 (by simp only [decide_eq_true_eq]; omega)

/-- A write to an address that exists keeps the address bound. -/
theorem write_within (cap : Capacity) (m : Memory) (k : Nat) (v : Byte)
    (h : m.within cap = true) (hk : hasAddress cap k = true) : (m.write k v).within cap = true :=
  all_write m k v _ h hk

/-- The whole of `readRange`: it answers exactly the bytes read, all of them written. -/
theorem readRange_eq_some (m : Memory) (a n : Nat) (bs : List Byte) :
    m.readRange a n = some bs ↔ bs.length = n ∧ ∀ i < n, m.read (a + i) = bs[i]? := by
  induction n generalizing a bs with
  | zero =>
    simp only [Memory.readRange, Option.some.injEq, List.length_eq_zero_iff]
    exact ⟨fun h => ⟨h.symm, fun i hi => absurd hi (Nat.not_lt_zero i)⟩, fun h => h.1.symm⟩
  | succ n ih =>
    constructor
    · intro h
      simp only [Memory.readRange] at h
      cases hr : m.read a with
      | none => simp [hr] at h
      | some b =>
        cases ht : m.readRange (a + 1) n with
        | none => simp [hr, ht] at h
        | some cs =>
          simp only [hr, ht, Option.some.injEq] at h
          obtain ⟨hl, hi⟩ := (ih (a + 1) cs).mp ht
          subst h
          refine ⟨by simp [hl], fun i hi' => ?_⟩
          cases i with
          | zero => simpa using hr
          | succ i =>
            have := hi i (by omega)
            rw [show a + (i + 1) = a + 1 + i by omega, this]
            simp
    · rintro ⟨hl, hi⟩
      cases bs with
      | nil => simp at hl
      | cons b cs =>
        have h0 : m.read a = some b := by simpa using hi 0 (by omega)
        have ht : m.readRange (a + 1) n = some cs :=
          (ih (a + 1) cs).mpr ⟨by simpa using hl, fun i hi' => by
            have := hi (i + 1) (by omega)
            rw [show a + 1 + i = a + (i + 1) by omega, this]
            simp⟩
        simp [Memory.readRange, h0, ht]

/-- `readRange` answers none exactly where a byte is unwritten. -/
theorem readRange_eq_none (m : Memory) (a n : Nat) :
    m.readRange a n = none ↔ ∃ i < n, m.read (a + i) = none := by
  induction n generalizing a with
  | zero => simp [Memory.readRange]
  | succ n ih =>
    constructor
    · intro h
      cases hr : m.read a with
      | none => exact ⟨0, by omega, by simpa using hr⟩
      | some b =>
        have ht : m.readRange (a + 1) n = none := by
          cases hx : m.readRange (a + 1) n with
          | none => rfl
          | some cs => simp [Memory.readRange, hr, hx] at h
        obtain ⟨i, hi, hn⟩ := (ih (a + 1)).mp ht
        exact ⟨i + 1, by omega, by rw [show a + (i + 1) = a + 1 + i by omega]; exact hn⟩
    · rintro ⟨i, hi, hn⟩
      cases i with
      | zero =>
        simp only [Nat.add_zero] at hn
        simp [Memory.readRange, hn]
      | succ i =>
        have ht := (ih (a + 1)).mpr ⟨i, by omega, by rw [show a + 1 + i = a + (i + 1) by omega]; exact hn⟩
        simp [Memory.readRange, ht]

/-- The input operand, said of single bytes. -/
theorem input_eq_some (s : State) (bs : List Byte) :
    s.input = some bs ↔ bs.length = s.ilen.toNat ∧ ∀ a < s.ilen.toNat, s.ibuf.read a = bs[a]? := by
  simpa [State.input] using readRange_eq_some s.ibuf 0 s.ilen.toNat bs

/-- There is no input operand exactly where an input byte is unwritten (R82). -/
theorem input_eq_none (s : State) :
    s.input = none ↔ ∃ a < s.ilen.toNat, s.ibuf.read a = none := by
  simpa [State.input] using readRange_eq_none s.ibuf 0 s.ilen.toNat

end Sys2Proof.Machine
end

