-- ==== Sys2Proof/Laws/PerInstr.lean ====
section
/-! SUPPORT. Statements made per instruction: the word of each instruction keeps the encoding's one
check (30_encoding.md R90). -/

namespace Sys2Proof.Laws.CommandWord

/-- The word of the instruction has its reserved bits clear, and the instruction is well-formed. -/
def Statement (i : Instr) : Prop := i.wellFormed = true ∧ reservedBitsClear (encodeCommand i) = true

theorem encode : Statement .encode := ⟨rfl, by decide⟩

theorem decode : Statement .decode := ⟨rfl, by decide⟩

end Sys2Proof.Laws.CommandWord
end

