-- ==== Sys2Proof/Laws/State.lean ====
section
/-! SUPPORT. One lemma per field per named update of State, so that no later proof unfolds a record update. -/

namespace Sys2Proof.Machine

variable (s : State)

/-! ### complete -/

@[simp] theorem complete_cmd (out : List Byte) : (s.complete out).cmd = s.cmd := rfl
@[simp] theorem complete_phase (out : List Byte) : (s.complete out).phase = .done := rfl
@[simp] theorem complete_err (out : List Byte) : (s.complete out).err = .ok := rfl
@[simp] theorem complete_ilen (out : List Byte) : (s.complete out).ilen = s.ilen := rfl
@[simp] theorem complete_olen (out : List Byte) : (s.complete out).olen = BitVec.ofNat 32 out.length := rfl
@[simp] theorem complete_errpos (out : List Byte) : (s.complete out).errpos = 0#32 := rfl
@[simp] theorem complete_ibuf (out : List Byte) : (s.complete out).ibuf = s.ibuf := rfl
@[simp] theorem complete_obuf (out : List Byte) : (s.complete out).obuf = out := rfl
@[simp] theorem complete_hostQueue (out : List Byte) : (s.complete out).hostQueue = s.hostQueue := rfl
@[simp] theorem complete_replies (out : List Byte) : (s.complete out).replies = s.replies := rfl
@[simp] theorem complete_coreLag (out : List Byte) : (s.complete out).coreLag = s.coreLag := rfl
@[simp] theorem complete_issued (out : List Byte) : (s.complete out).issued = s.issued := rfl

/-! ### raiseError -/

@[simp] theorem raiseError_cmd (code : ErrCode) (pos : Nat) : (s.raiseError code pos).cmd = s.cmd := rfl
@[simp] theorem raiseError_phase (code : ErrCode) (pos : Nat) : (s.raiseError code pos).phase = .done := rfl
@[simp] theorem raiseError_err (code : ErrCode) (pos : Nat) : (s.raiseError code pos).err = code := rfl
@[simp] theorem raiseError_ilen (code : ErrCode) (pos : Nat) : (s.raiseError code pos).ilen = s.ilen := rfl
@[simp] theorem raiseError_olen (code : ErrCode) (pos : Nat) : (s.raiseError code pos).olen = 0#32 := rfl
@[simp] theorem raiseError_errpos (code : ErrCode) (pos : Nat) : (s.raiseError code pos).errpos = BitVec.ofNat 32 pos := rfl
@[simp] theorem raiseError_ibuf (code : ErrCode) (pos : Nat) : (s.raiseError code pos).ibuf = s.ibuf := rfl
@[simp] theorem raiseError_obuf (code : ErrCode) (pos : Nat) : (s.raiseError code pos).obuf = [] := rfl
@[simp] theorem raiseError_hostQueue (code : ErrCode) (pos : Nat) : (s.raiseError code pos).hostQueue = s.hostQueue := rfl
@[simp] theorem raiseError_replies (code : ErrCode) (pos : Nat) : (s.raiseError code pos).replies = s.replies := rfl
@[simp] theorem raiseError_coreLag (code : ErrCode) (pos : Nat) : (s.raiseError code pos).coreLag = s.coreLag := rfl
@[simp] theorem raiseError_issued (code : ErrCode) (pos : Nat) : (s.raiseError code pos).issued = s.issued := rfl

/-! ### startCommand -/

@[simp] theorem startCommand_cmd (v : Word) : (s.startCommand v).cmd = v := rfl
@[simp] theorem startCommand_phase (v : Word) : (s.startCommand v).phase = .busy := rfl
@[simp] theorem startCommand_err (v : Word) : (s.startCommand v).err = s.err := rfl
@[simp] theorem startCommand_ilen (v : Word) : (s.startCommand v).ilen = s.ilen := rfl
@[simp] theorem startCommand_olen (v : Word) : (s.startCommand v).olen = s.olen := rfl
@[simp] theorem startCommand_errpos (v : Word) : (s.startCommand v).errpos = s.errpos := rfl
@[simp] theorem startCommand_ibuf (v : Word) : (s.startCommand v).ibuf = s.ibuf := rfl
@[simp] theorem startCommand_obuf (v : Word) : (s.startCommand v).obuf = s.obuf := rfl
@[simp] theorem startCommand_hostQueue (v : Word) : (s.startCommand v).hostQueue = s.hostQueue := rfl
@[simp] theorem startCommand_replies (v : Word) : (s.startCommand v).replies = s.replies := rfl
@[simp] theorem startCommand_coreLag (v : Word) : (s.startCommand v).coreLag = Config.completionLag s.issued := rfl
@[simp] theorem startCommand_issued (v : Word) : (s.startCommand v).issued = s.issued + 1 := rfl

/-! ### resetEvent -/

@[simp] theorem resetEvent_cmd : (s.resetEvent).cmd = 0#32 := rfl
@[simp] theorem resetEvent_phase : (s.resetEvent).phase = .idle := rfl
@[simp] theorem resetEvent_err : (s.resetEvent).err = .ok := rfl
@[simp] theorem resetEvent_ilen : (s.resetEvent).ilen = 0#32 := rfl
@[simp] theorem resetEvent_olen : (s.resetEvent).olen = 0#32 := rfl
@[simp] theorem resetEvent_errpos : (s.resetEvent).errpos = 0#32 := rfl
@[simp] theorem resetEvent_ibuf : (s.resetEvent).ibuf = [] := rfl
@[simp] theorem resetEvent_obuf : (s.resetEvent).obuf = [] := rfl
@[simp] theorem resetEvent_hostQueue : (s.resetEvent).hostQueue = s.hostQueue := rfl
@[simp] theorem resetEvent_replies : (s.resetEvent).replies = s.replies := rfl
@[simp] theorem resetEvent_coreLag : (s.resetEvent).coreLag = 0 := rfl
@[simp] theorem resetEvent_issued : (s.resetEvent).issued = s.issued := rfl

/-! ### reply -/

@[simp] theorem reply_cmd (r : Reply) : (s.reply r).cmd = s.cmd := rfl
@[simp] theorem reply_phase (r : Reply) : (s.reply r).phase = s.phase := rfl
@[simp] theorem reply_err (r : Reply) : (s.reply r).err = s.err := rfl
@[simp] theorem reply_ilen (r : Reply) : (s.reply r).ilen = s.ilen := rfl
@[simp] theorem reply_olen (r : Reply) : (s.reply r).olen = s.olen := rfl
@[simp] theorem reply_errpos (r : Reply) : (s.reply r).errpos = s.errpos := rfl
@[simp] theorem reply_ibuf (r : Reply) : (s.reply r).ibuf = s.ibuf := rfl
@[simp] theorem reply_obuf (r : Reply) : (s.reply r).obuf = s.obuf := rfl
@[simp] theorem reply_hostQueue (r : Reply) : (s.reply r).hostQueue = s.hostQueue := rfl
@[simp] theorem reply_replies (r : Reply) : (s.reply r).replies = r :: s.replies := rfl
@[simp] theorem reply_coreLag (r : Reply) : (s.reply r).coreLag = s.coreLag := rfl
@[simp] theorem reply_issued (r : Reply) : (s.reply r).issued = s.issued := rfl

/-! ### storeIbuf -/

@[simp] theorem storeIbuf_cmd (a : Nat) (v : Byte) : (s.storeIbuf a v).cmd = s.cmd := rfl
@[simp] theorem storeIbuf_phase (a : Nat) (v : Byte) : (s.storeIbuf a v).phase = s.phase := rfl
@[simp] theorem storeIbuf_err (a : Nat) (v : Byte) : (s.storeIbuf a v).err = s.err := rfl
@[simp] theorem storeIbuf_ilen (a : Nat) (v : Byte) : (s.storeIbuf a v).ilen = s.ilen := rfl
@[simp] theorem storeIbuf_olen (a : Nat) (v : Byte) : (s.storeIbuf a v).olen = s.olen := rfl
@[simp] theorem storeIbuf_errpos (a : Nat) (v : Byte) : (s.storeIbuf a v).errpos = s.errpos := rfl
@[simp] theorem storeIbuf_ibuf (a : Nat) (v : Byte) : (s.storeIbuf a v).ibuf = s.ibuf.write a v := rfl
@[simp] theorem storeIbuf_obuf (a : Nat) (v : Byte) : (s.storeIbuf a v).obuf = s.obuf := rfl
@[simp] theorem storeIbuf_hostQueue (a : Nat) (v : Byte) : (s.storeIbuf a v).hostQueue = s.hostQueue := rfl
@[simp] theorem storeIbuf_replies (a : Nat) (v : Byte) : (s.storeIbuf a v).replies = s.replies := rfl
@[simp] theorem storeIbuf_coreLag (a : Nat) (v : Byte) : (s.storeIbuf a v).coreLag = s.coreLag := rfl
@[simp] theorem storeIbuf_issued (a : Nat) (v : Byte) : (s.storeIbuf a v).issued = s.issued := rfl

/-! ### setIlen -/

@[simp] theorem setIlen_cmd (v : Word) : (s.setIlen v).cmd = s.cmd := rfl
@[simp] theorem setIlen_phase (v : Word) : (s.setIlen v).phase = s.phase := rfl
@[simp] theorem setIlen_err (v : Word) : (s.setIlen v).err = s.err := rfl
@[simp] theorem setIlen_ilen (v : Word) : (s.setIlen v).ilen = v := rfl
@[simp] theorem setIlen_olen (v : Word) : (s.setIlen v).olen = s.olen := rfl
@[simp] theorem setIlen_errpos (v : Word) : (s.setIlen v).errpos = s.errpos := rfl
@[simp] theorem setIlen_ibuf (v : Word) : (s.setIlen v).ibuf = s.ibuf := rfl
@[simp] theorem setIlen_obuf (v : Word) : (s.setIlen v).obuf = s.obuf := rfl
@[simp] theorem setIlen_hostQueue (v : Word) : (s.setIlen v).hostQueue = s.hostQueue := rfl
@[simp] theorem setIlen_replies (v : Word) : (s.setIlen v).replies = s.replies := rfl
@[simp] theorem setIlen_coreLag (v : Word) : (s.setIlen v).coreLag = s.coreLag := rfl
@[simp] theorem setIlen_issued (v : Word) : (s.setIlen v).issued = s.issued := rfl

/-! ### popAction -/

@[simp] theorem popAction_cmd (rest : List HostAction) : (s.popAction rest).cmd = s.cmd := rfl
@[simp] theorem popAction_phase (rest : List HostAction) : (s.popAction rest).phase = s.phase := rfl
@[simp] theorem popAction_err (rest : List HostAction) : (s.popAction rest).err = s.err := rfl
@[simp] theorem popAction_ilen (rest : List HostAction) : (s.popAction rest).ilen = s.ilen := rfl
@[simp] theorem popAction_olen (rest : List HostAction) : (s.popAction rest).olen = s.olen := rfl
@[simp] theorem popAction_errpos (rest : List HostAction) : (s.popAction rest).errpos = s.errpos := rfl
@[simp] theorem popAction_ibuf (rest : List HostAction) : (s.popAction rest).ibuf = s.ibuf := rfl
@[simp] theorem popAction_obuf (rest : List HostAction) : (s.popAction rest).obuf = s.obuf := rfl
@[simp] theorem popAction_hostQueue (rest : List HostAction) : (s.popAction rest).hostQueue = rest := rfl
@[simp] theorem popAction_replies (rest : List HostAction) : (s.popAction rest).replies = s.replies := rfl
@[simp] theorem popAction_coreLag (rest : List HostAction) : (s.popAction rest).coreLag = s.coreLag - 1 := rfl
@[simp] theorem popAction_issued (rest : List HostAction) : (s.popAction rest).issued = s.issued := rfl

/-! ### withPending -/

@[simp] theorem withPending_cmd (v : Word) : (s.withPending v).cmd = v := rfl
@[simp] theorem withPending_phase (v : Word) : (s.withPending v).phase = .busy := rfl
@[simp] theorem withPending_err (v : Word) : (s.withPending v).err = s.err := rfl
@[simp] theorem withPending_ilen (v : Word) : (s.withPending v).ilen = s.ilen := rfl
@[simp] theorem withPending_olen (v : Word) : (s.withPending v).olen = s.olen := rfl
@[simp] theorem withPending_errpos (v : Word) : (s.withPending v).errpos = s.errpos := rfl
@[simp] theorem withPending_ibuf (v : Word) : (s.withPending v).ibuf = s.ibuf := rfl
@[simp] theorem withPending_obuf (v : Word) : (s.withPending v).obuf = s.obuf := rfl
@[simp] theorem withPending_hostQueue (v : Word) : (s.withPending v).hostQueue = s.hostQueue := rfl
@[simp] theorem withPending_replies (v : Word) : (s.withPending v).replies = s.replies := rfl
@[simp] theorem withPending_coreLag (v : Word) : (s.withPending v).coreLag = 0 := rfl
@[simp] theorem withPending_issued (v : Word) : (s.withPending v).issued = s.issued := rfl

end Sys2Proof.Machine
end

