-- ==== Sys2Proof/Laws/Step.lean ====
section
/-! SUPPORT. Everything a command, a host action and a step can do, said once: an inversion lemma for each
shared operation, which later proofs cite instead of unfolding it. -/

namespace Sys2Proof.Machine

/-! ### Commands -/

/-- Everything ENCODE can answer with a next state. -/
theorem execEncode_next {s t : State} (h : execEncode s = .next t) :
    ∃ bs, s.input = some bs ∧ t = s.complete (encodeBytes bs) := by
  unfold execEncode at h
  cases hi : s.input with
  | none => simp [hi] at h
  | some bs => exact ⟨bs, rfl, by simpa [hi] using h.symm⟩

/-- Everything DECODE can answer with a next state, in either strip mode. -/
theorem runDecode_next {mode : StripMode} {s t : State} (h : runDecode mode s = .next t) :
    ∃ cs, s.input = some cs ∧
      ((∃ e, decodeErrorOf cs = some e ∧ t = s.raiseError e.code e.pos) ∨
       (decodeErrorOf cs = none ∧ t = s.complete (strip mode (recoverBytes cs) (padCountOf cs)))) := by
  unfold runDecode at h
  cases hi : s.input with
  | none => simp [hi] at h
  | some cs =>
    refine ⟨cs, rfl, ?_⟩
    cases he : decodeErrorOf cs with
    | none => exact .inr ⟨rfl, by simpa [hi, decodeBytes, he] using h.symm⟩
    | some e => exact .inl ⟨e, rfl, by simpa [hi, decodeBytes, he] using h.symm⟩

/-- A command never refuses, in either strip mode. -/
theorem execOf_not_refused (p : Params) (i : Instr) (s : State) (r : Refusal) : execOf p i s ≠ .refused r := by
  cases i
  · simp only [execOf, execEncode]
    split <;> simp
  · simp only [execOf, runDecode]
    split
    · simp
    · split <;> simp

/-- Every next state of a command, in either strip mode: an OK completion or an error completion of the
same state. -/
theorem execOf_next {p : Params} {i : Instr} {s t : State} (h : execOf p i s = .next t) :
    (∃ out, t = s.complete out) ∨ (∃ e : DecodeError, t = s.raiseError e.code e.pos) := by
  cases i with
  | encode =>
    obtain ⟨bs, -, rfl⟩ := execEncode_next h
    exact .inl ⟨_, rfl⟩
  | decode =>
    obtain ⟨cs, -, ⟨e, -, rfl⟩ | ⟨-, rfl⟩⟩ := runDecode_next h
    · exact .inr ⟨e, rfl⟩
    · exact .inl ⟨_, rfl⟩

/-- This hardware's commands are the device's at its own parameters (R7). -/
theorem exec_eq (i : Instr) (s : State) : exec i s = execOf Config.params i s := by cases i <;> rfl

theorem exec_not_refused (i : Instr) (s : State) (r : Refusal) : exec i s ≠ .refused r :=
  exec_eq i s ▸ execOf_not_refused Config.params i s r

theorem exec_next {i : Instr} {s t : State} (h : exec i s = .next t) :
    (∃ out, t = s.complete out) ∨ (∃ e : DecodeError, t = s.raiseError e.code e.pos) :=
  execOf_next (exec_eq i s ▸ h)

/-! ### Host actions -/

/-- Everything a host action can answer with a next state. -/
theorem hostAct_next {p : Params} {a : HostAction} {s t : State} (h : hostAct p a s = .next t) :
    (∃ v i, a = .writeReg 0 v ∧ s.phase ≠ .busy ∧ decodeCommand v = .ok i ∧ t = s.startCommand v) ∨
    (∃ v, a = .writeReg 2 v ∧ s.phase ≠ .busy ∧ legalLength p.maxInLen v.toNat = true ∧ t = s.setIlen v) ∨
    (∃ k v, a = .writeIbuf k v ∧ s.phase ≠ .busy ∧ hasAddress p.maxInLen k = true ∧ t = s.storeIbuf k v) ∨
    (∃ r, t = s.reply r) ∨
    (a = .reset ∧ t = s.resetEvent) := by
  cases a with
  | writeReg r v =>
    simp only [hostAct, hostWriteReg] at h
    rcases r with _ | _ | _ | _ | _ | _ | r
    · simp only [regOfNumber, hostWriteCmd] at h
      split at h
      · simp at h
      · rename_i hb
        split at h
        · simp at h
        · rename_i i hd
          exact .inl ⟨v, i, rfl, hb, hd, by simpa using h.symm⟩
    · simp [regOfNumber] at h
    · simp only [regOfNumber, hostWriteIlen] at h
      split at h
      · simp at h
      · rename_i hb
        split at h
        · simp at h
        · rename_i hl
          exact .inr (.inl ⟨v, rfl, hb, by simpa using hl, by simpa using h.symm⟩)
    all_goals simp [regOfNumber] at h
  | readReg r =>
    simp only [hostAct, hostReadReg] at h
    split at h
    · simp at h
    · split at h
      · simp at h
      · exact .inr (.inr (.inr (.inl ⟨_, by simpa using h.symm⟩)))
  | writeIbuf k v =>
    simp only [hostAct, hostWriteIbuf] at h
    split at h
    · simp at h
    · rename_i ha
      split at h
      · simp at h
      · rename_i hb
        exact .inr (.inr (.inl ⟨k, v, rfl, hb, by simpa using ha, by simpa using h.symm⟩))
  | readIbuf k =>
    simp only [hostAct, hostReadIbuf] at h
    split at h
    · simp at h
    · split at h
      · simp at h
      · exact .inr (.inr (.inr (.inl ⟨_, by simpa using h.symm⟩)))
  | writeObuf k v => simp [hostAct, hostWriteObuf] at h
  | readObuf k =>
    simp only [hostAct, hostReadObuf] at h
    split at h
    · simp at h
    · split at h
      · simp at h
      · split at h
        · simp at h
        · exact .inr (.inr (.inr (.inl ⟨_, by simpa using h.symm⟩)))
  | reset => exact .inr (.inr (.inr (.inr ⟨rfl, by simpa [hostAct] using h.symm⟩)))

theorem legalLength_bounded {m : Nat} {h} (n : Nat) : legalLength (.bounded m h) n = true ↔ n ≤ m := by
  simp [legalLength]

theorem legalLength_unbounded (n : Nat) :
    legalLength .unbounded n = true ↔ 4 * ((n + 2) / 3) ≤ 2 ^ 32 - 1 := by
  simp [legalLength]

/-- A legal length meets R7's inequality, so a result of ENCODE fits `OLEN`. -/
theorem legalLength_fits {cap : Capacity} {n : Nat} (h : legalLength cap n = true) :
    4 * ((n + 2) / 3) ≤ 2 ^ 32 - 1 := by
  cases cap with
  | bounded m fits =>
    rw [legalLength_bounded] at h
    omega
  | unbounded => exact (legalLength_unbounded n).mp h

theorem hostWriteIlen_legal {cap : Capacity} {v : Word} {s : State} (hb : s.phase ≠ .busy)
    (h : legalLength cap v.toNat = true) : hostWriteIlen cap v s = .next (s.setIlen v) := by
  simp [hostWriteIlen, hb, h]

theorem hostWriteIlen_illegal {cap : Capacity} {v : Word} {s : State} (hb : s.phase ≠ .busy)
    (h : legalLength cap v.toNat = false) : hostWriteIlen cap v s = .refused .lengthOutOfRange := by
  simp [hostWriteIlen, hb, h]

/-- A host action never faults. -/
theorem hostAct_not_fault (p : Params) (a : HostAction) (s : State) (f : Fault) :
    hostAct p a s ≠ .fault f := by
  cases a with
  | writeReg r v =>
    simp only [hostAct, hostWriteReg]
    split <;> try simp
    · simp only [hostWriteCmd]
      split
      · simp
      · split <;> simp
    · simp only [hostWriteIlen]
      split
      · simp
      · split <;> simp
  | readReg r =>
    simp only [hostAct, hostReadReg]
    split
    · simp
    · split <;> simp
  | writeIbuf k v =>
    simp only [hostAct, hostWriteIbuf]
    split
    · simp
    · split <;> simp
  | readIbuf k =>
    simp only [hostAct, hostReadIbuf]
    split
    · simp
    · split <;> simp
  | writeObuf k v => simp [hostAct, hostWriteObuf]
  | readObuf k =>
    simp only [hostAct, hostReadObuf]
    split
    · simp
    · split
      · simp
      · split <;> simp
  | reset => simp [hostAct]

/-- Everything the host's step can answer with a next state. -/
theorem hostStep_next {p : Params} {s t : State} (h : hostStep p s = .next t) :
    (s.hostQueue = [] ∧ t = s) ∨
    (∃ a rest, s.hostQueue = a :: rest ∧ hostAct p a (s.popAction rest) = .next t) := by
  unfold hostStep at h
  cases hq : s.hostQueue with
  | nil => exact .inl ⟨rfl, by simpa [hq] using h.symm⟩
  | cons a rest => exact .inr ⟨a, rest, rfl, by simpa [hq] using h⟩

/-! ### Steps -/

/-- This hardware's step is the device's at its own parameters (R7). -/
theorem step_eq (s : State) : step s = stepOf Config.params s := by
  rw [step, stepOf, show exec = execOf Config.params from funext₂ exec_eq]

theorem stepWith_of_coreTurn {p : Params} {run} {s : State} (h : coreTurn p s = true) :
    stepWith p run s = coreStepWith run s := by
  simp [stepWith, h]

theorem stepWith_of_hostTurn {p : Params} {run} {s : State} (h : coreTurn p s = false) :
    stepWith p run s = hostStep p s := by
  simp [stepWith, h]

theorem step_of_coreTurn {s : State} (h : coreTurn Config.params s = true) : step s = coreStep s :=
  stepWith_of_coreTurn h

theorem step_of_hostTurn {s : State} (h : coreTurn Config.params s = false) :
    step s = hostStep Config.params s :=
  stepWith_of_hostTurn h

theorem stepOf_of_coreTurn {p : Params} {s : State} (h : coreTurn p s = true) : stepOf p s = coreStepOf p s :=
  stepWith_of_coreTurn h

theorem stepOf_of_hostTurn {p : Params} {s : State} (h : coreTurn p s = false) : stepOf p s = hostStep p s :=
  stepWith_of_hostTurn h

theorem coreTurn_busy {p : Params} {s : State} (h : coreTurn p s = true) : s.phase = .busy := by
  simp only [coreTurn, Bool.and_eq_true, decide_eq_true_eq] at h
  exact h.1

theorem coreStepWith_of_decode {run} {s : State} {i : Instr} (h : decodeCommand s.cmd = .ok i) :
    coreStepWith run s = run i s := by
  simp [coreStepWith, pendingCommand, h]

/-- Everything a core step can answer with a next state. -/
theorem coreStepWith_next {run} {s t : State} (h : coreStepWith run s = .next t) :
    ∃ i, decodeCommand s.cmd = .ok i ∧ run i s = .next t := by
  unfold coreStepWith pendingCommand at h
  cases hd : decodeCommand s.cmd with
  | ok i => exact ⟨i, rfl, by simpa [hd] using h⟩
  | error r => cases r; simp [hd] at h

/-- Everything a step can answer with a next state, whatever performs the commands: a core step, the host
idle, or one host action. -/
theorem stepWith_next {p : Params} {run} {s t : State} (h : stepWith p run s = .next t) :
    (coreTurn p s = true ∧ ∃ i, decodeCommand s.cmd = .ok i ∧ run i s = .next t) ∨
    (coreTurn p s = false ∧ s.hostQueue = [] ∧ t = s) ∨
    (coreTurn p s = false ∧ ∃ a rest, s.hostQueue = a :: rest ∧ hostAct p a (s.popAction rest) = .next t) := by
  cases hc : coreTurn p s with
  | true =>
    rw [stepWith_of_coreTurn hc] at h
    exact .inl ⟨rfl, coreStepWith_next h⟩
  | false =>
    rw [stepWith_of_hostTurn hc] at h
    rcases hostStep_next h with ⟨hq, ht⟩ | ha
    · exact .inr (.inl ⟨rfl, hq, ht⟩)
    · exact .inr (.inr ⟨rfl, ha⟩)

/-- Everything a step of this hardware can answer with a next state. -/
theorem step_next {s t : State} (h : step s = .next t) :
    (coreTurn Config.params s = true ∧ ∃ i, decodeCommand s.cmd = .ok i ∧ exec i s = .next t) ∨
    (coreTurn Config.params s = false ∧ s.hostQueue = [] ∧ t = s) ∨
    (coreTurn Config.params s = false ∧
      ∃ a rest, s.hostQueue = a :: rest ∧ hostAct Config.params a (s.popAction rest) = .next t) :=
  stepWith_next h

/-- Everything a step of a device can answer with a next state, in either strip mode. -/
theorem stepOf_next {p : Params} {s t : State} (h : stepOf p s = .next t) :
    (coreTurn p s = true ∧ ∃ i, decodeCommand s.cmd = .ok i ∧ execOf p i s = .next t) ∨
    (coreTurn p s = false ∧ s.hostQueue = [] ∧ t = s) ∨
    (coreTurn p s = false ∧ ∃ a rest, s.hostQueue = a :: rest ∧ hostAct p a (s.popAction rest) = .next t) :=
  stepWith_next h

end Sys2Proof.Machine
end

