-- ==== Sys2Proof/Laws/Run.lean ====
section
/-! SUPPORT. Runs of several steps: one step in front of a run. -/

namespace Sys2Proof.Machine

/-- This hardware is the device with its own parameters (R7). -/
theorem core_eq : Sys2Proof.core = device Config.params := by
  rw [Sys2Proof.core, device, show step = stepOf Config.params from funext step_eq]

/-- A run of `k + 1` steps whose first step answers a next state is a run of `k` steps from there. -/
theorem device_run_succ {p : Params} {s s' : State} (k : Nat) (h : stepOf p s = .next s') :
    Host.Core.run (device p) (k + 1) s = Host.Core.run (device p) k s' := by
  have hs : (device p).step s = .next s' := h
  simp only [Host.Core.run, hs]

/-- A run of no steps stays where it is. -/
theorem device_run_zero (p : Params) (s : State) : Host.Core.run (device p) 0 s = .next s := rfl

/-- Where a device stops it stops for good: no run goes past a refused step. -/
theorem device_run_refused {p : Params} {s : State} {r : Refusal} (k : Nat) (h : stepOf p s = .refused r) :
    Host.Core.run (device p) (k + 1) s = .refused r := by
  have hs : (device p).step s = .refused r := h
  simp only [Host.Core.run, hs]

/-- Where a device faults the fault is kept: no run goes past it (R239). -/
theorem device_run_fault {p : Params} {s : State} {f : Fault} (k : Nat) (h : stepOf p s = .fault f) :
    Host.Core.run (device p) (k + 1) s = .fault f := by
  have hs : (device p).step s = .fault f := h
  simp only [Host.Core.run, hs]

/-! ### This hardware -/

/-- A run of `k + 1` steps whose first step answers a next state is a run of `k` steps from there. -/
theorem core_run_succ {s s' : State} (k : Nat) (h : step s = .next s') :
    Host.Core.run Sys2Proof.core (k + 1) s = Host.Core.run Sys2Proof.core k s' := by
  have hs : Sys2Proof.core.step s = .next s' := h
  simp only [Host.Core.run, hs]

/-- A run of no steps stays where it is. -/
theorem core_run_zero (s : State) : Host.Core.run Sys2Proof.core 0 s = .next s := rfl

/-- Where the machine stops it stops for good: no run goes past a refused step. -/
theorem core_run_refused {s : State} {r : Refusal} (k : Nat) (h : step s = .refused r) :
    Host.Core.run Sys2Proof.core (k + 1) s = .refused r := by
  have hs : Sys2Proof.core.step s = .refused r := h
  simp only [Host.Core.run, hs]

/-- Where the machine faults the fault is kept: no run goes past it (R239). -/
theorem core_run_fault {s : State} {f : Fault} (k : Nat) (h : step s = .fault f) :
    Host.Core.run Sys2Proof.core (k + 1) s = .fault f := by
  have hs : Sys2Proof.core.step s = .fault f := h
  simp only [Host.Core.run, hs]

end Sys2Proof.Machine
end

