-- ==== Sys2Proof/Tests/Slice0.lean ====
section
/-! SUPPORT. Tests: the check of WellFormed, words and vectors taken from the spec's tables
(spec/95_test_vectors.md), and for every statement with hypotheses a concrete witness of them. -/

namespace Sys2Proof.Tests

open Sys2Proof.Machine Sys2Proof.Safety

/-! ### Helpers -/

/-- `IBUF` holding `bs` from address `a` on. -/
def place (a : Nat) : List Byte → Memory
  | [] => []
  | b :: bs => (a, b) :: place (a + 1) bs

/-- The state after reset with `bs` written to `IBUF` and `ILEN` set to its length. -/
def loaded (bs : List Byte) : State :=
  { State.reset with ibuf := place 0 bs, ilen := BitVec.ofNat 32 bs.length }

/-- The answer of a step is a next state with this `OBUF`, this `STATUS` word and this `ERRPOS`. -/
def answers (o : Host.Outcome State Fault Refusal) (out : List Byte) (status errpos : Word) : Bool :=
  match o with
  | .next t => decide (t.obuf = out ∧ t.statusWord = status ∧ t.errpos = errpos ∧ t.olen.toNat = out.length)
  | _ => false

/-- The step of a loaded state whose next instruction is the word `w` answers this. -/
def runs (w : Nat) (bs out : List Byte) (status errpos : Word) : Bool :=
  answers (step ((loaded bs).withFetchWord 32 w)) out status errpos

/-- The refusal of an outcome, if it is one. -/
def refusalOf (o : Host.Outcome State Fault Refusal) : Option Refusal :=
  match o with
  | .refused r => some r
  | _ => none

/-- The next state of an outcome, if it is one. -/
def nextOf (o : Host.Outcome State Fault Refusal) : Option State :=
  match o with
  | .next t => some t
  | _ => none

/-- Parameters with 16 bytes of `IBUF`, and the same with the other strip mode. -/
def small : Params := { maxInLen := .bounded 16 (by decide), stripMode := .nulTrim }

def smallPad : Params := { maxInLen := .bounded 16 (by decide), stripMode := .padCount }

/-! ### WellFormed: words with a reserved bit set are ill-formed (R90) -/

theorem test_wellFormed_refuses_bit1 : reservedBitsClear 0x00000002#32 = false := by decide

theorem test_wellFormed_refuses_bit31 : reservedBitsClear 0x80000000#32 = false := by decide

theorem test_wellFormed_accepts : reservedBitsClear 0x00000001#32 = true := by decide

/-! ### Decode: the words of opcode_table.json, bit by bit -/

theorem test_decode_ENCODE_word :
    decodeCommand 0b00000000000000000000000000000000#32 = .ok .encode := by decide

theorem test_decode_DECODE_word :
    decodeCommand 0b00000000000000000000000000000001#32 = .ok .decode := by decide

/-- Vectors H4, H5: the first and the last reserved bit. -/
theorem test_decode_reserved_words :
    decodeCommand 0b00000000000000000000000000000010#32 = .error .reservedCommand ∧
    decodeCommand 0b10000000000000000000000000000000#32 = .error .reservedCommand := by decide

theorem test_decodeTableWord :
    decodeTableWord 32 0 = some .encode ∧ decodeTableWord 32 1 = some .decode ∧
    decodeTableWord 32 2 = none ∧ decodeTableWord 33 (2 ^ 32) = none := by decide

/-! ### ENCODE and DECODE: one step each (95_test_vectors.md sections 1, 2.3, 2.6, 2.7) -/

/-- W2: "Su" gives "U3U=". -/
theorem test_encode_two_byte_tail :
    runs 0 [0x53, 0x75] [0x55, 0x33, 0x55, 0x3D] 0x00000002#32 0#32 = true := by decide

/-- Section 2.3: "foob" gives "Zm9vYg==", a group and a one-byte tail. -/
theorem test_encode_group_and_tail :
    runs 0 [0x66, 0x6F, 0x6F, 0x62] [0x5A, 0x6D, 0x39, 0x76, 0x59, 0x67, 0x3D, 0x3D] 0x00000002#32 0#32 = true := by
  decide

/-- Section 3: "UwAAAA==" gives 53 under NUL_TRIM, which crosses a group boundary. -/
theorem test_decode_trims_across_groups :
    runs 1 [0x55, 0x77, 0x41, 0x41, 0x41, 0x41, 0x3D, 0x3D] [0x53] 0x00000002#32 0#32 = true := by decide

/-- Section 3: "UwAAAA==" gives 53 00 00 00 under PAD_COUNT, in a step of a device with that mode. -/
theorem test_decode_padCount_step :
    answers (stepOf smallPad ((loaded [0x55, 0x77, 0x41, 0x41, 0x41, 0x41, 0x3D, 0x3D]).withFetchWord 32 1))
      [0x53, 0x00, 0x00, 0x00] 0x00000002#32 0#32 = true := by decide

/-- Section 2.7: "U=*=" gives ERR_PAD at 1, before the ERR_CHAR at 2. -/
theorem test_decode_lowest_position :
    runs 1 [0x55, 0x3D, 0x2A, 0x3D] [] 0x0000000E#32 1#32 = true := by decide

/-! ### Datapath tables -/

/-- Section 2.2: FB FF BF packs to 62, 63, 62, 63 and 00 10 83 to 0, 1, 2, 3. -/
theorem test_pack :
    pack 0xFB 0xFF 0xBF = ⟨62, 63, 62, 63⟩ ∧ pack 0x00 0x10 0x83 = ⟨0, 1, 2, 3⟩ := by decide

/-- Section 2.5: 20, 55, 21, 46 unpacks to 53 75 6E; the rejected reading of C5 would give 50. -/
theorem test_unpack : unpack ⟨20, 55, 21, 46⟩ = ⟨0x53, 0x75, 0x6E⟩ := by decide

/-- Section 2.1: the six-bit use of `topBits` on the index 48. -/
theorem test_topBits_on_index : topBits 0xC0#8 2 = 3#8 ∧ topBits 48#8 2 = 0#8 := by decide

/-- Section 2.4: entries of `REV_ROM` at the edges of its ranges. -/
theorem test_revRom_edges :
    revRom 0x2A = 0x00 ∧ revRom 0x2B = 0xBE ∧ revRom 0x2F = 0xBF ∧ revRom 0x30 = 0xB4 ∧ revRom 0x39 = 0xBD ∧
    revRom 0x3A = 0x00 ∧ revRom 0x3D = 0x40 ∧ revRom 0x40 = 0x00 ∧ revRom 0x41 = 0x80 ∧ revRom 0x5A = 0x99 ∧
    revRom 0x5B = 0x00 ∧ revRom 0x61 = 0x9A ∧ revRom 0x7A = 0xB3 ∧ revRom 0x7B = 0x00 ∧ revRom 0xFF = 0x00 := by
  decide

/-! ### The host port (95_test_vectors.md section 5) -/

/-- H10, H11: just above `MAX_IN_LEN`. H9: at it. -/
theorem test_host_bounds :
    refusalOf (hostAct small (.writeReg 2 17) State.reset) = some .lengthOutOfRange ∧
    refusalOf (hostAct small (.writeIbuf 16 0x41) State.reset) = some .addressOutOfRange ∧
    (nextOf (hostAct small (.writeReg 2 16) State.reset)).isSome = true := by decide

/-- H18: `STATUS` while BUSY holds the old `ERR`. -/
theorem test_host_status_while_busy :
    (nextOf (hostAct small (.readReg 1) { State.reset with phase := .busy, err := .errChar })).map State.replies =
      some [.reg .status 0x00000009#32] := by decide

/-- H6, H12, H14: the order of the checks. -/
theorem test_host_refusals :
    refusalOf (hostAct small (.writeReg 0 2) { State.reset with phase := .busy }) = some .writeWhileBusy ∧
    refusalOf (hostAct small (.readIbuf 0) State.reset) = some .readUnwritten ∧
    refusalOf (hostAct small (.readObuf 0) State.reset) = some .addressOutOfRange := by decide

/-- Section 3: `CONFIG` reads 1 for PAD_COUNT. -/
theorem test_config_reads_mode :
    (nextOf (hostAct smallPad (.readReg 5) State.reset)).map State.replies =
      some [.reg .config 0x00000001#32] := by decide

/-- P5: a write refused only because BUSY waits, and the core step comes first. -/
theorem test_blocked_host_lets_the_core_run :
    coreTurn small { State.reset with phase := .busy, coreLag := 3, hostQueue := [.writeReg 2 1] } = true ∧
    coreTurn small { State.reset with phase := .busy, coreLag := 3, hostQueue := [.readReg 1] } = false := by decide

/-! ### Witnesses: command words and helpers -/

theorem witness_CommandWordsRoundTrip :
    Instr.wellFormed .encode = true ∧ decodeCommand 1#32 = .ok .decode := by decide

theorem witness_ReservedWordIsRefused :
    reservedBitsClear 0x00000002#32 = false ∧ State.reset.phase ≠ .busy ∧
    ({ State.reset with phase := .busy } : State).phase = .busy := by decide

theorem witness_HelpersRefuseOutOfDomain : (8 : Nat) ≤ 8 ∧ 8 < 9 := by decide

theorem witness_HelpersOnIndices :
    1 ≤ (1 : Fin 9).val ∧ (6 : Fin 9).val ≤ 6 ∧ 1 ≤ (2 : Fin 9).val ∧ (2 : Fin 9).val ≤ 2 := by decide

/-! ### Witnesses: ROMs and datapath -/

theorem witness_AlphabetRomContents :
    (25#6).toNat ≤ 25 ∧ 26 ≤ (26#6).toNat ∧ (51#6).toNat ≤ 51 ∧ 52 ≤ (52#6).toNat ∧ (61#6).toNat ≤ 61 ∧
    (62#6).toNat = 62 ∧ (63#6).toNat = 63 ∧ alphaRom 5 = alphaRom 5 := by decide

theorem witness_ReverseRomContents :
    (0x2A#8).toNat ≤ 0x2A ∧ (0x2B#8).toNat = 0x2B ∧ (0x2F#8).toNat = 0x2F ∧ (0x30#8).toNat = 0x30 ∧
    (0x3D#8).toNat = 0x3D ∧ (0x41#8).toNat = 0x41 ∧ (0x7A#8).toNat = 0x7A ∧ 0x7B ≤ (0x7B#8).toNat ∧
    entryValid (revRom 0x2A) = false := by decide

theorem witness_RomsAreInverse : entryValid (revRom 0x2B) = true := by decide

/-- A full group at place 0, a full group followed by each tail, and no tail. -/
theorem witness_EncodeLayout :
    ([0x53, 0x75, 0x6E] : List Byte)[3 * 0]? = some 0x53 ∧ ([0x53, 0x75, 0x6E] : List Byte)[3 * 0 + 1]? = some 0x75 ∧
    ([0x53, 0x75, 0x6E] : List Byte)[3 * 0 + 2]? = some 0x6E ∧ ([0x53, 0x75, 0x6E] : List Byte).length % 3 = 0 ∧
    ([1, 2, 3, 4] : List Byte).length % 3 = 1 ∧ ([1, 2, 3, 4] : List Byte)[3 * (4 / 3)]? = some 4 ∧
    ([1, 2, 3, 4, 5] : List Byte).length % 3 = 2 ∧ ([1, 2, 3, 4, 5] : List Byte)[3 * (5 / 3)]? = some 4 ∧
    ([1, 2, 3, 4, 5] : List Byte)[3 * (5 / 3) + 1]? = some 5 := by decide

theorem witness_PaddingRule :
    (emitChars [0x53]).length % 4 = 2 ∧ (emitChars [0x53, 0x75]).length % 4 = 3 ∧
    (emitChars [0x53, 0x75, 0x6E]).length % 4 = 0 := by decide

theorem witness_EncodeAlphabetClosure :
    ([] : List Byte).length % 3 = 0 ∧ ([0x53] : List Byte).length % 3 = 1 ∧ ([0x53, 0x75] : List Byte).length % 3 = 2 := by
  decide

theorem witness_EncodeCanonicalTail :
    ([0xFF] : List Byte).length % 3 = 1 ∧ ([0xFF, 0xFF] : List Byte).length % 3 = 2 := by decide

/-- "*===": the first position fails R164. -/
theorem firstFailure_char : FirstFailure [0x2A, 0x3D, 0x3D, 0x3D] 0 (.char 0) :=
  ⟨⟨0x2A#8, rfl, .inl ⟨by decide, rfl⟩⟩, fun j hj => absurd hj (Nat.not_lt_zero j)⟩

/-- "====": the first position fails R166. -/
theorem firstFailure_pad : FirstFailure [0x3D, 0x3D, 0x3D, 0x3D] 0 (.pad 0) :=
  ⟨⟨0x3D#8, rfl, .inr ⟨by decide, fun h => absurd h.1 (by decide), rfl⟩⟩, fun j hj => absurd hj (Nat.not_lt_zero j)⟩

/-- "U3V*": only the last position fails. -/
theorem firstFailure_last : FirstFailure [0x55, 0x33, 0x56, 0x2A] 3 (.char 3) := by
  refine ⟨⟨0x2A#8, rfl, .inl ⟨by decide, rfl⟩⟩, ?_⟩
  have key : ∀ c ∈ ([0x55, 0x33, 0x56] : List Byte), classify c ≠ .invalid ∧ classify c ≠ .pad := by decide
  rintro j hj e ⟨c, hc, h⟩
  have hm : c ∈ ([0x55, 0x33, 0x56] : List Byte) := by
    rcases j with _ | _ | _ | j
    · simp at hc; simp [← hc]
    · simp at hc; simp [← hc]
    · simp at hc; simp [← hc]
    · omega
  rcases h with h | h
  · exact (key c hm).1 h.1
  · exact (key c hm).2 h.1

theorem witness_FirstFailingPositionIsReported :
    ([0x55] : List Byte).length % 4 ≠ 0 ∧ ([0x55, 0x33, 0x56, 0x2A] : List Byte).length % 4 = 0 ∧
    FirstFailure [0x55, 0x33, 0x56, 0x2A] 3 (.char 3) :=
  ⟨by decide, by decide, firstFailure_last⟩

theorem witness_PadCountIsTrailing : decodeErrorOf [0x55, 0x77, 0x3D, 0x3D] = none := by decide

theorem witness_RawLayout :
    ([0x55, 0x33, 0x56, 0x75] : List Byte).length % 4 = 0 ∧ ([0x55, 0x33, 0x56, 0x75] : List Byte)[4 * 0]? = some 0x55 ∧
    ([0x55, 0x33, 0x56, 0x75] : List Byte)[4 * 0 + 1]? = some 0x33 ∧
    ([0x55, 0x33, 0x56, 0x75] : List Byte)[4 * 0 + 2]? = some 0x56 ∧
    ([0x55, 0x33, 0x56, 0x75] : List Byte)[4 * 0 + 3]? = some 0x75 := by decide

theorem witness_StripperRemovesTheTail : 2 ≤ ([0x53, 0x00, 0x00] : List Byte).length := by decide

/-- "Uw==" in both strip modes, and an ENCODE input of the same capacity. -/
theorem witness_DecodeOutputLength :
    decodeBytes .nulTrim [0x55, 0x77, 0x3D, 0x3D] = .ok [0x53] ∧
    decodeBytes .padCount [0x55, 0x77, 0x3D, 0x3D] = .ok [0x53] ∧
    ([0x55, 0x77, 0x3D, 0x3D] : List Byte).length ≤ 4 ∧ 1 ≤ 4 ∧ ([1, 2, 3, 4] : List Byte).length = 4 := ⟨rfl, rfl, by decide⟩

theorem witness_UnusedBitsFlowThrough :
    ([0x55, 0x33, 0x56, 0x75] : List Byte).length % 4 = 0 ∧ (∀ c ∈ ([0x55, 0x33, 0x56, 0x75] : List Byte), IsValid c) ∧
    (49#6).extractLsb' 0 4 ≠ 0#4 ∧ (21#6).extractLsb' 0 2 ≠ 0#2 := by
  refine ⟨by decide, ?_, by decide, by decide⟩
  intro c hc
  simp only [List.mem_cons, List.not_mem_nil, or_false] at hc
  rcases hc with rfl | rfl | rfl | rfl
  · exact ⟨20, by decide⟩
  · exact ⟨55, by decide⟩
  · exact ⟨21, by decide⟩
  · exact ⟨46, by decide⟩

theorem witness_StripModesAgreeExactlyWhen :
    decodeErrorOf [0x55, 0x33, 0x55, 0x3D] = none ∧ decodeErrorOf [0x41, 0x41, 0x41, 0x41] = none := by decide

/-! ### Witnesses: commands -/

/-- The input of a loaded state, said by `IsInput`. -/
theorem isInput_loaded3 : IsInput (loaded [0x53, 0x75, 0x6E]) [0x53, 0x75, 0x6E] := by unfold IsInput; decide

theorem witness_EncodeCompletes :
    InputWritten (loaded [0x53, 0x75, 0x6E]) ∧ 4 * ((3 + 2) / 3) ≤ 2 ^ 32 - 1 ∧
    (loaded [0x53, 0x75, 0x6E]).ilen.toNat ≤ 3 := by decide

theorem witness_DecodeCompletes :
    IsInput (loaded [0x55, 0x77, 0x3D, 0x3D]) [0x55, 0x77, 0x3D, 0x3D] ∧
    decodeErrorOf [0x55, 0x77, 0x3D, 0x3D] = none ∧ IsInput (loaded [0x55]) [0x55] ∧
    decodeErrorOf [0x55] = some .length := by
  unfold IsInput
  decide

theorem witness_DecodeErrorsComplete_length :
    IsInput (loaded [0x55]) [0x55] ∧ (loaded [0x55]).ilen.toNat % 4 ≠ 0 := by
  unfold IsInput
  decide

theorem witness_DecodeErrorsComplete_char :
    IsInput (loaded [0x55, 0x33, 0x56, 0x2A]) [0x55, 0x33, 0x56, 0x2A] ∧
    (loaded [0x55, 0x33, 0x56, 0x2A]).ilen.toNat % 4 = 0 ∧
    FirstFailure [0x55, 0x33, 0x56, 0x2A] 3 (.char 3) := by
  refine ⟨?_, by decide, firstFailure_last⟩
  unfold IsInput
  decide

theorem witness_DecodeErrorsComplete_pad :
    IsInput (loaded [0x3D, 0x3D, 0x3D, 0x3D]) [0x3D, 0x3D, 0x3D, 0x3D] ∧
    (loaded [0x3D, 0x3D, 0x3D, 0x3D]).ilen.toNat % 4 = 0 ∧
    FirstFailure [0x3D, 0x3D, 0x3D, 0x3D] 0 (.pad 0) := by
  refine ⟨?_, by decide, firstFailure_pad⟩
  unfold IsInput
  decide

/-- H20: one byte asked for, none written; and the written input beside it. -/
theorem witness_UnwrittenInputFaults :
    (∃ a < ({ State.reset with ilen := 1#32 } : State).ilen.toNat, State.reset.ibuf.read a = none) ∧
    InputWritten (loaded [0x53]) := ⟨⟨0, by decide, rfl⟩, by decide⟩

theorem witness_EmptyInputCompletes : State.reset.ilen = 0#32 := rfl

/-- Two states with the same input that differ everywhere else. -/
theorem witness_EncodeDependsOnInputOnly :
    (loaded [0x53]).ilen = ({ loaded [0x53] with err := .errPad, obuf := [1], olen := 1 } : State).ilen ∧
    (∀ a < (loaded [0x53]).ilen.toNat, (loaded [0x53]).ibuf.read a =
      ({ loaded [0x53] with ibuf := (0, 0x53) :: [(5, 0x41)] } : State).ibuf.read a) ∧
    (nextOf (exec .encode (loaded [0x53]))).isSome = true := by decide

theorem witness_DecodeDependsOnInputOnly :
    (∀ a < (loaded [0x55]).ilen.toNat, (loaded [0x55]).ibuf.read a =
      ({ loaded [0x55] with ibuf := (0, 0x55) :: [(5, 0x41)] } : State).ibuf.read a) ∧
    (nextOf (exec .decode (loaded [0x55]))).isSome = true ∧
    (nextOf (execOf smallPad .decode (loaded [0x55]))).isSome = true ∧ smallPad.stripMode = .padCount := by decide

theorem witness_CommandFrame :
    (nextOf (execOf smallPad .decode (loaded [0x55, 0x77, 0x3D, 0x3D]))).isSome = true ∧
    (nextOf (exec .encode (loaded [0x53]))).isSome = true ∧
    (nextOf (exec .decode (loaded [0x55, 0x77, 0x3D, 0x3D]))).isSome = true := by decide

/-- One completion with each value of `ERR`. -/
theorem witness_ErrposNamesTheOffendingByte :
    (nextOf (exec .decode (loaded [0x55, 0x33, 0x56, 0x2A]))).map State.err = some .errChar ∧
    (nextOf (exec .decode (loaded [0x3D, 0x3D, 0x3D, 0x3D]))).map State.err = some .errPad ∧
    (nextOf (exec .decode (loaded [0x55]))).map State.err = some .errLength ∧
    (nextOf (exec .encode (loaded [0x55]))).map State.err = some .ok := by decide

/-- ENCODE of "S", its result copied into `IBUF`. -/
theorem witness_CoreRoundTrip :
    IsInput (loaded [0x53]) [0x53] ∧ 4 * (((loaded [0x53]).ilen.toNat + 2) / 3) ≤ 2 ^ 32 - 1 ∧
    exec .encode (loaded [0x53]) = .next ((loaded [0x53]).complete [0x55, 0x77, 0x3D, 0x3D]) ∧
    small.stripMode = .nulTrim ∧ smallPad.stripMode = .padCount ∧
    (loaded [0x55, 0x77, 0x3D, 0x3D]).ilen = ((loaded [0x53]).complete [0x55, 0x77, 0x3D, 0x3D]).olen ∧
    ∀ a < ((loaded [0x53]).complete [0x55, 0x77, 0x3D, 0x3D]).olen.toNat,
      (loaded [0x55, 0x77, 0x3D, 0x3D]).ibuf.read a = ((loaded [0x53]).complete [0x55, 0x77, 0x3D, 0x3D]).obuf[a]? := by
  refine ⟨?_, by decide, rfl, rfl, rfl, by decide, by decide⟩
  unfold IsInput
  decide

/-! ### Witnesses: the host port -/

/-- The last address and the first that does not exist, idle and BUSY. -/
theorem witness_HostWritesIbuf :
    hasAddress small.maxInLen 16 = false ∧ hasAddress small.maxInLen 15 = true ∧ State.reset.phase ≠ .busy ∧
    ({ State.reset with phase := .busy } : State).phase = .busy ∧ (0 : Nat) ≠ 15 ∧ State.reset.ibuf.wf = true := by
  decide

theorem witness_HostReadsIbuf :
    hasAddress small.maxInLen 16 = false ∧ hasAddress small.maxInLen 0 = true ∧ State.reset.ibuf.read 0 = none ∧
    (loaded [0x53]).ibuf.read 0 = some 0x53 := by decide

/-- An `OBUF` of one byte: its last address and the first above it, DONE and BUSY. -/
theorem witness_HostReadsObuf :
    ((loaded []).complete [0x53]).obuf.length = ((loaded []).complete [0x53]).olen.toNat ∧
    ((loaded []).complete [0x53]).phase ≠ .busy ∧ 0 < ((loaded []).complete [0x53]).olen.toNat ∧
    ((loaded []).complete [0x53]).olen.toNat ≤ 1 ∧
    (State.reset.withPending 0).obuf.length = (State.reset.withPending 0).olen.toNat ∧
    (State.reset.withPending 0).phase = .busy := by decide

/-- `ILEN` at `MAX_IN_LEN` and just above it, a command word and a reserved one, idle and BUSY. -/
theorem witness_HostWritesRegister :
    4 * ((16 + 2) / 3) ≤ 2 ^ 32 - 1 ∧ 6 ≤ 6 ∧ State.reset.phase ≠ .busy ∧
    (State.reset.withPending 0).phase = .busy ∧ 16 < (17#32).toNat ∧ (16#32).toNat ≤ 16 ∧
    (2#32 ≠ 0x00000000#32) ∧ (2#32 ≠ 0x00000001#32) := by decide

/-- The greatest length that meets R7's inequality, 3221225469, and the next one. -/
theorem witness_UnboundedCapacity :
    State.reset.phase ≠ .busy ∧ (State.reset.withPending 0).phase = .busy ∧ (0 : Nat) ≠ 2 ∧
    4 * (((3221225469#32).toNat + 2) / 3) ≤ 2 ^ 32 - 1 ∧
    ¬ 4 * (((3221225470#32).toNat + 2) / 3) ≤ 2 ^ 32 - 1 := by decide

theorem witness_HostReadsRegister :
    6 ≤ 6 ∧ State.reset.phase ≠ .busy ∧ (State.reset.withPending 0).phase = .busy ∧
    small.stripMode = .nulTrim ∧ smallPad.stripMode = .padCount := by decide

/-- A host action that has a step while BUSY. -/
theorem witness_BusyFixesTheInput :
    (State.reset.withPending 0).phase = .busy ∧ HostAction.readReg 1 ≠ .reset ∧
    (nextOf (hostAct small (.readReg 1) (State.reset.withPending 0))).isSome = true := by decide

/-! ### Witnesses: steps -/

/-- Core's turn, nobody's, and the host's with a command pending, on this hardware and on a device of the
other strip mode. -/
theorem witness_StepRunsPendingCommand :
    decodeCommand (State.reset.withPending 0).cmd = .ok .encode ∧ (State.reset.withPending 0).phase = .busy ∧
    (State.reset.withPending 0).coreLag = 0 ∧ State.reset.phase ≠ .busy ∧
    (∀ p ∈ [Config.params, smallPad], ∀ r,
      hostStep p { State.reset with phase := .busy, coreLag := 1, hostQueue := [.readReg 1] } ≠ .refused r) := by
  refine ⟨by decide, by decide, by decide, by decide, ?_⟩
  intro p _ r
  simp [hostStep, hostAct, hostReadReg, regOfNumber, unreadableWhileBusy]

/-- "UwAA" accepted, and a device that shows each strip mode. -/
theorem witness_StepStripsAsConfigShows :
    IsInput (loaded [0x55, 0x77, 0x41, 0x41]) [0x55, 0x77, 0x41, 0x41] ∧
    decodeErrorOf [0x55, 0x77, 0x41, 0x41] = none ∧
    (∀ t, hostAct small (.readReg 5) t = .next { t with replies := .reg .config 0x00000000#32 :: t.replies }) ∧
    (∀ t, hostAct smallPad (.readReg 5) t = .next { t with replies := .reg .config 0x00000001#32 :: t.replies }) ∧
    smallPad.stripMode = .padCount := by
  refine ⟨?_, by decide, fun t => rfl, fun t => rfl, rfl⟩
  unfold IsInput
  decide

/-- A step of each kind: reset, a legal `CMD` write, and a core step. -/
theorem witness_PhaseMovesOnlyAsListed :
    (nextOf (stepOf smallPad { State.reset with hostQueue := [.reset] })).isSome = true ∧
    (nextOf (stepOf smallPad { State.reset with hostQueue := [.writeReg 0 1] })).map State.phase = some .busy ∧
    (nextOf (stepOf small (State.reset.withPending 1))).map State.phase = some .done := by decide

/-- A core step that changes `ERR`, and a command's next state. -/
theorem witness_ErrWrittenOnlyByCompletion :
    (nextOf (stepOf smallPad ((loaded [0x55]).withPending 1))).map State.err = some .errLength ∧
    ((loaded [0x55]).withPending 1).err = .ok ∧
    (nextOf (exec .encode (loaded [0x53]))).isSome = true := by decide

/-- A core step that changes `OBUF`. -/
theorem witness_BuffersWrittenOnlyAsListed_obuf :
    (nextOf (stepOf small ((loaded [0x53]).withPending 0))).map State.obuf = some [0x55, 0x77, 0x3D, 0x3D] ∧
    ((loaded [0x53]).withPending 0).obuf = [] := by decide

/-- A host byte write that changes `IBUF` at the last address of a 16-byte device. -/
theorem witness_BuffersWrittenOnlyAsListed_ibuf :
    (nextOf (stepOf small { State.reset with hostQueue := [.writeIbuf 15 0x53] })).map (fun t => t.ibuf.read 15) =
      some (some 0x53) ∧
    ({ State.reset with hostQueue := [.writeIbuf 15 0x53] } : State).ibuf.read 15 = none := by decide

/-- H20: the core step of a command whose input is not written faults. -/
theorem witness_StepFaultsExactlyWhen :
    (match stepOf smallPad (({ State.reset with ilen := 1#32 } : State).withPending 0) with
      | .fault f => decide (f = .unwrittenInput)
      | _ => false) = true := by decide

/-- The invariant at a state with a pending command, whose step is a next state. -/
theorem witness_InvariantKeptByStep :
    (∀ p, Inv p (State.reset.withPending 1)) ∧ (nextOf (stepOf smallPad (State.reset.withPending 1))).isSome = true ∧
    (nextOf (step (State.reset.withPending 1))).isSome = true := by
  refine ⟨fun p => ⟨by decide, ?_, rfl, rfl, rfl, by simp [State.reset], by simp [State.reset], by simp⟩,
    by decide, by decide⟩
  show legalLength p.maxInLen 0 = true
  cases p.maxInLen <;> simp [legalLength]

/-- A pending command with a host read queued before it. -/
theorem witness_PendingCommandIsPerformed :
    ({ (loaded [0x53]).withPending 0 with hostQueue := [.readReg 1] } : State).phase = .busy ∧
    decodeCommand ((loaded [0x53]).withPending 0).cmd = .ok .encode ∧
    (∀ a ∈ [HostAction.readReg 1], a ≠ .reset) ∧ InputWritten (loaded [0x53]) := by decide

theorem witness_PollsBeforeCompletionReadBusy :
    ({ State.reset with phase := .busy, coreLag := 2, hostQueue := [.readReg 1, .readReg 1, .reset] } : State).hostQueue =
      List.replicate 2 (.readReg 1) ++ [.reset] ∧
    2 ≤ ({ State.reset with phase := .busy, coreLag := 2 } : State).coreLag := by decide

end Sys2Proof.Tests
end

namespace Sys2Proof.Machine

open Sys2Proof.Safety

/-! ### A pending command is performed by the next step (log 6) -/

/-- It is the core's turn: the command is pending and no host action may come before it. -/
theorem coreTurn_withPending (p : Params) (s : State) (v : Word) : coreTurn p (s.withPending v) = true := by
  simp [coreTurn]

/-- R68, R76: the step of a state with a command's word pending performs that command. -/
theorem stepOf_withPending (p : Params) (s : State) {v : Word} {i : Instr} (h : decodeCommand v = .ok i) :
    stepOf p (s.withPending v) = execOf p i (s.withPending v) :=
  (stepOf_of_coreTurn (coreTurn_withPending p s v)).trans (coreStepWith_of_decode h)

/-- The input operand depends on `ILEN` and `IBUF` alone, which a pending command leaves as they are. -/
@[simp] theorem input_withPending (s : State) (v : Word) : (s.withPending v).input = s.input := rfl

theorem input_eq_of_isInput {s : State} {bs : List Byte} (h : IsInput s bs) : s.input = some bs :=
  (input_eq_some s bs).mpr h

/-! ### DECODE of an accepted input -/

/-- R160, R183: DECODE of an accepted input completes with the stripped bytes. -/
theorem runDecode_of_accepted (mode : StripMode) {s : State} {cs : List Byte} (hi : s.input = some cs)
    (he : decodeErrorOf cs = none) :
    runDecode mode s = .next (s.complete (strip mode (recoverBytes cs) (padCountOf cs))) := by
  simp [runDecode, hi, decodeBytes, he]

/-- The step that performs a pending DECODE of an accepted input strips by the device's own mode (R180). -/
theorem stepOf_pendingDecode_of_accepted (p : Params) {s : State} {cs : List Byte} (hin : IsInput s cs)
    (he : decodeErrorOf cs = none) :
    stepOf p (s.withFetchWord 32 1) = .next ((s.withFetchWord 32 1).complete
      (strip p.stripMode (recoverBytes cs) (padCountOf cs))) := by
  have hword : decodeCommand (tableWord 32 1) = .ok .decode := by decide
  have hinput : (s.withPending (tableWord 32 1)).input = some cs := by rw [input_withPending, input_eq_of_isInput hin]
  exact (stepOf_withPending p s hword).trans (runDecode_of_accepted p.stripMode hinput he)

/-! ### `CONFIG` shows the strip mode (R28) -/

/-- A host read of register 5 has a step in every phase and returns the word of the strip mode (R69). -/
theorem hostAct_readConfig (p : Params) (t : State) :
    hostAct p (.readReg 5) t = .next (t.reply (.reg .config (configWord p.stripMode))) := rfl

/-- The word a host reads from `CONFIG` is the strip mode's, and no other. -/
theorem configWord_eq_of_read {p : Params} {t : State} {w : Word}
    (h : hostAct p (.readReg 5) t = .next (t.reply (.reg .config w))) : configWord p.stripMode = w := by
  rw [hostAct_readConfig, Host.Outcome.next.injEq] at h
  simpa using congrArg State.replies h

theorem configWord_eq_zero {mode : StripMode} : configWord mode = 0x00000000#32 ↔ mode = .nulTrim := by
  cases mode <;> decide

theorem configWord_eq_one {mode : StripMode} : configWord mode = 0x00000001#32 ↔ mode = .padCount := by
  cases mode <;> decide

/-! ### The spec's example "UwAA" (95_test_vectors.md section 3) -/

/-- The characters of "UwAA": a group without padding whose last two bytes are zero. -/
def charsUwAA : List Byte := [0x55#8, 0x77#8, 0x41#8, 0x41#8]

theorem decodeErrorOf_charsUwAA : decodeErrorOf charsUwAA = none := by decide

theorem strip_nulTrim_charsUwAA :
    strip .nulTrim (recoverBytes charsUwAA) (padCountOf charsUwAA) = [0x53#8] := by decide

theorem strip_padCount_charsUwAA :
    strip .padCount (recoverBytes charsUwAA) (padCountOf charsUwAA) = [0x53#8, 0x00#8, 0x00#8] := by decide

/-- What a step of DECODE leaves in `OBUF` of a device for "UwAA". -/
theorem stepOf_pendingDecode_charsUwAA (p : Params) {s : State} {out : List Byte} (hin : IsInput s charsUwAA)
    (hout : strip p.stripMode (recoverBytes charsUwAA) (padCountOf charsUwAA) = out) :
    ∃ t, stepOf p (s.withFetchWord 32 1) = .next t ∧ t.obuf = out :=
  ⟨_, stepOf_pendingDecode_of_accepted p hin decodeErrorOf_charsUwAA, hout⟩

/-! ### The statements on the parameters (00_scope.md R7) -/

/-- Settles O59: the step completes with `strip` at the device's mode, and `CONFIG` reads that mode's word,
so what `CONFIG` reads fixes which strategy `strip` followed. -/
theorem stepStripsAsConfigShows : Obligations.StepStripsAsConfigShows := by
  unfold Obligations.StepStripsAsConfigShows
  refine ⟨fun p s cs hin he => ?_, fun s hin => ⟨?_, fun p hp => ?_⟩⟩
  · refine ⟨_, stepOf_pendingDecode_of_accepted p hin he, rfl, rfl, fun hread => ?_, fun hread => ?_⟩
    · have hmode : p.stripMode = .nulTrim := configWord_eq_zero.mp (configWord_eq_of_read hread)
      simp [hmode, strip]
    · have hmode : p.stripMode = .padCount := configWord_eq_one.mp (configWord_eq_of_read hread)
      simp [hmode, strip]
  · rw [step_eq]
    exact stepOf_pendingDecode_charsUwAA Config.params hin strip_nulTrim_charsUwAA
  · exact stepOf_pendingDecode_charsUwAA p hin (hp ▸ strip_padCount_charsUwAA)

/-- Settles O58: by the laws that compare this hardware's command, step and machine with the device's. -/
theorem thisHardwareIsADevice : Obligations.ThisHardwareIsADevice :=
  ⟨rfl, exec_eq, step_eq, core_eq⟩

end Sys2Proof.Machine

namespace Sys2Proof.Machine

open Sys2Proof.Safety

/-! ### What fails validation, and where (R164 to R167) -/

/-- Whether a position fails is settled by the class of the byte there. -/
theorem failsAt_iff {cs : List Byte} {i : Nat} {c : Byte} (hc : cs[i]? = some c) (e : DecodeError) :
    FailsAt cs i e ↔
      (classify c = .invalid ∧ e = .char i) ∨ (classify c = .pad ∧ ¬ LegalPadAt cs i ∧ e = .pad i) := by
  simp [FailsAt, hc]

/-- A position that fails is one of the input's, and the error it raises carries it. -/
theorem failsAt_pos {cs : List Byte} {i : Nat} {e : DecodeError} (h : FailsAt cs i e) :
    e.pos = i ∧ i < cs.length := by
  obtain ⟨c, hc, ⟨-, rfl⟩ | ⟨-, -, rfl⟩⟩ := h <;> exact ⟨rfl, (List.getElem?_eq_some_iff.mp hc).1⟩

/-- ERR_CHAR comes from an INVALID byte (R164). -/
theorem failsAt_errChar {cs : List Byte} {i : Nat} {e : DecodeError} (h : FailsAt cs i e)
    (he : e.code = .errChar) : e = .char i ∧ ∃ c, cs[i]? = some c ∧ classify c = .invalid := by
  obtain ⟨c, hc, ⟨hinv, rfl⟩ | ⟨-, -, rfl⟩⟩ := h
  · exact ⟨rfl, c, hc, hinv⟩
  · cases he

/-- ERR_PAD comes from a `PAD` outside a trailing position (R166). -/
theorem failsAt_errPad {cs : List Byte} {i : Nat} {e : DecodeError} (h : FailsAt cs i e)
    (he : e.code = .errPad) : e = .pad i ∧ cs[i]? = some pad ∧ ¬ LegalPadAt cs i := by
  obtain ⟨c, hc, ⟨-, rfl⟩ | ⟨hpad, hleg, rfl⟩⟩ := h
  · cases he
  · exact ⟨rfl, (classify_eq_pad c).mp hpad ▸ hc, hleg⟩

/-- `LEGAL_PAD` as validation tests it, on the rest of the input, is R165's. -/
theorem legalPadTail_drop (cs : List Byte) (i : Nat) : legalPadTail (cs.drop i) = true ↔ LegalPadAt cs i := by
  have hlen : (cs.drop i).length ≤ 2 ↔ cs.length ≤ i + 2 := by rw [List.length_drop]; omega
  have hall : (∀ c ∈ cs.drop i, c = pad) ↔ ∀ j, i ≤ j → j < cs.length → cs[j]? = some pad := by
    constructor
    · intro h j hij hj
      have hmem : cs[j] ∈ cs.drop i :=
        List.mem_drop_iff_getElem.mpr ⟨j - i, by omega, by congr 1; omega⟩
      rw [List.getElem?_eq_getElem hj, h _ hmem]
    · intro h c hc
      obtain ⟨k, hk, rfl⟩ := List.mem_drop_iff_getElem.mp hc
      have hpad := h (i + k) (by omega) (by omega)
      rwa [List.getElem?_eq_getElem, Option.some.injEq] at hpad
  simp only [legalPadTail, Bool.and_eq_true, decide_eq_true_eq, List.all_eq_true, hlen, hall, LegalPadAt]

/-- Validation from a position on, with no failure before it, answers the first failure (R167). -/
theorem firstFailure_of_scanFrom {cs : List Byte} {e : DecodeError} (i : Nat)
    (hbefore : ∀ j < i, ∀ e', ¬ FailsAt cs j e') (h : scanFrom i (cs.drop i) = some e) :
    FirstFailure cs e.pos e := by
  generalize hrest : cs.drop i = rest at h
  induction rest generalizing i with
  | nil => simp [scanFrom] at h
  | cons c rest ih =>
    have hc : cs[i]? = some c := by simpa [hrest] using (List.getElem?_drop (xs := cs) (i := i) (j := 0)).symm
    have hdrop : cs.drop (i + 1) = rest := by rw [← List.tail_drop, hrest, List.tail_cons]
    have stops (hfail : FailsAt cs i e) : FirstFailure cs e.pos e := (failsAt_pos hfail).1.symm ▸ ⟨hfail, hbefore⟩
    have goesOn (hok : ∀ e', ¬ FailsAt cs i e') (h' : scanFrom (i + 1) rest = some e) : FirstFailure cs e.pos e :=
      ih (i + 1) (fun j hj => (Nat.lt_succ_iff_lt_or_eq.mp hj).elim (hbefore j) (fun hji => hji ▸ hok)) hdrop h'
    cases hclass : classify c with
    | invalid =>
      rw [scanFrom_invalid i c rest hclass] at h
      exact stops ((failsAt_iff hc e).mpr (.inl ⟨hclass, (Option.some.inj h).symm⟩))
    | valid v =>
      rw [scanFrom_valid i c rest v hclass] at h
      exact goesOn (fun e' => by simp [failsAt_iff hc, hclass]) h
    | pad =>
      have hlegal := legalPadTail_drop cs i
      rw [hrest] at hlegal
      obtain rfl := (classify_eq_pad c).mp hclass
      rw [scanFrom_pad] at h
      split at h
      next hleg => exact goesOn (fun e' => by simp [failsAt_iff hc, hlegal.mp hleg]) h
      next hleg => exact stops ((failsAt_iff hc e).mpr (.inr ⟨hclass, fun hat => hleg (hlegal.mpr hat), (Option.some.inj h).symm⟩))

/-- The error of a DECODE is that of the length or that of the first position that fails (R161, R167). -/
theorem decodeErrorOf_some {cs : List Byte} {e : DecodeError} (h : decodeErrorOf cs = some e) :
    e = .length ∨ FirstFailure cs e.pos e := by
  unfold decodeErrorOf at h
  split at h
  · exact .inl (Option.some.inj h).symm
  · exact .inr (firstFailure_of_scanFrom 0 (fun j hj => absurd hj (Nat.not_lt_zero j)) h)

/-- The byte of the input at a position is the one `IBUF` holds at that address (R81). -/
theorem read_of_isInput {s : State} {cs : List Byte} (hin : IsInput s cs) {i : Nat} {c : Byte}
    (hc : cs[i]? = some c) : i < s.ilen.toNat ∧ s.ibuf.read i = some c := by
  obtain ⟨hlen, hread⟩ := hin
  have hi : i < s.ilen.toNat := hlen ▸ (List.getElem?_eq_some_iff.mp hc).1
  exact ⟨hi, (hread i hi).trans hc⟩

/-- R27: what a command leaves in `ERRPOS`: 0 after OK and ERR_LENGTH, otherwise the first position of the
input that fails, which fits the register because `ILEN` does. -/
theorem execOf_errpos {p : Params} {i : Instr} {s t : State} (h : execOf p i s = .next t) :
    ((t.err = .ok ∨ t.err = .errLength) ∧ t.errpos = 0#32) ∨
    (∃ cs e, IsInput s cs ∧ FirstFailure cs t.errpos.toNat e ∧ t.err = e.code) := by
  cases i with
  | encode =>
    obtain ⟨bs, -, rfl⟩ := execEncode_next h
    exact .inl ⟨.inl rfl, rfl⟩
  | decode =>
    obtain ⟨cs, hi, ⟨e, he, rfl⟩ | ⟨-, rfl⟩⟩ := runDecode_next h
    · obtain rfl | hfirst := decodeErrorOf_some he
      · exact .inl ⟨.inr rfl, rfl⟩
      · have hin : IsInput s cs := (input_eq_some s cs).mp hi
        have hpos : (BitVec.ofNat 32 e.pos).toNat = e.pos :=
          Nat.mod_eq_of_lt ((hin.1 ▸ (failsAt_pos hfirst.1).2).trans s.ilen.isLt)
        exact .inr ⟨cs, e, hin, by rwa [raiseError_errpos, hpos], rfl⟩
    · exact .inl ⟨.inl rfl, rfl⟩

/-! ### What a step can do, with the host's actions told apart -/

/-- Every step of a device that has a next state: a core step, reset, one of the three writes, or one that
leaves the block as it is (an idle host, or a read). -/
theorem stepOf_next_byAction {p : Params} {s t : State} (h : stepOf p s = .next t) :
    (coreTurn p s = true ∧ ∃ i, decodeCommand s.cmd = .ok i ∧ execOf p i s = .next t) ∨
    (s.hostQueue.head? = some .reset ∧ ∃ rest, t = (s.popAction rest).resetEvent) ∨
    (s.phase ≠ .busy ∧ ∃ v i rest, s.hostQueue.head? = some (.writeReg 0 v) ∧ decodeCommand v = .ok i ∧
      t = (s.popAction rest).startCommand v) ∨
    (∃ v rest, t = (s.popAction rest).setIlen v) ∨
    (s.phase ≠ .busy ∧ ∃ k v rest, s.hostQueue.head? = some (.writeIbuf k v) ∧
      t = (s.popAction rest).storeIbuf k v) ∨
    (t = s ∨ ∃ r rest, t = (s.popAction rest).reply r) := by
  obtain hcore | ⟨-, -, rfl⟩ | ⟨-, a, rest, hq, ha⟩ := stepOf_next h
  · exact .inl hcore
  · simp
  · rw [hq, List.head?_cons]
    obtain ⟨v, i, rfl, hb, hd, rfl⟩ | ⟨v, -, -, -, rfl⟩ | ⟨k, v, rfl, hb, -, rfl⟩ | ⟨r, rfl⟩ | ⟨rfl, rfl⟩ :=
      hostAct_next ha
    · exact .inr (.inr (.inl ⟨hb, v, i, rest, rfl, hd, rfl⟩))
    · exact .inr (.inr (.inr (.inl ⟨v, rest, rfl⟩)))
    · exact .inr (.inr (.inr (.inr (.inl ⟨hb, k, v, rest, rfl, rfl⟩))))
    · exact .inr (.inr (.inr (.inr (.inr (.inr ⟨r, rest, rfl⟩)))))
    · exact .inr (.inl ⟨rfl, rest, rfl⟩)

/-- R29, R37: `ERR`, `OLEN` and `OBUF` are kept by every step but a core step and reset. -/
theorem stepOf_result_kept {p : Params} {s t : State} (h : stepOf p s = .next t) :
    (s.hostQueue.head? = some .reset ∨
      (coreTurn p s = true ∧ ∃ i, decodeCommand s.cmd = .ok i ∧ execOf p i s = .next t)) ∨
    (t.err = s.err ∧ t.obuf = s.obuf ∧ t.olen = s.olen) := by
  obtain hcore | ⟨hq, -⟩ | ⟨-, v, i, rest, -, -, rfl⟩ | ⟨v, rest, rfl⟩ | ⟨-, k, v, rest, -, rfl⟩ |
    rfl | ⟨r, rest, rfl⟩ := stepOf_next_byAction h
  · exact .inl (.inr hcore)
  · exact .inl (.inl hq)
  all_goals exact .inr ⟨rfl, rfl, rfl⟩

/-- A command leaves the phase DONE (R38). -/
theorem execOf_phase {p : Params} {i : Instr} {s t : State} (h : execOf p i s = .next t) : t.phase = .done := by
  obtain ⟨out, rfl⟩ | ⟨e, rfl⟩ := execOf_next h <;> rfl

/-- A command leaves `IBUF` as it is (R36). -/
theorem execOf_ibuf {p : Params} {i : Instr} {s t : State} (h : execOf p i s = .next t) : t.ibuf = s.ibuf := by
  obtain ⟨out, rfl⟩ | ⟨e, rfl⟩ := execOf_next h <;> rfl

/-- No command reads `ERR`: its completion overwrites it whatever it was (R29). -/
theorem execOf_ignores_err {p : Params} {i : Instr} {s t : State} (e : ErrCode)
    (h : execOf p i s = .next t) : execOf p i { s with err := e } = .next t := by
  cases i with
  | encode =>
    obtain ⟨bs, hi, rfl⟩ := execEncode_next h
    have hi' : ({ s with err := e } : State).input = some bs := hi
    simp only [execOf, execEncode, hi', State.complete]
  | decode =>
    obtain ⟨cs, hi, ⟨d, hd, rfl⟩ | ⟨hd, rfl⟩⟩ := runDecode_next h
    all_goals have hi' : ({ s with err := e } : State).input = some cs := hi
    · simp only [execOf, runDecode, hi', decodeBytes, hd, State.raiseError]
    · simp only [execOf, runDecode, hi', decodeBytes, hd, State.complete]

/-! ### The statements on registers, buffers and ROMs (10_state.md) -/

/-- Settles O37: by where validation stops, and that a command's `ERRPOS` is that position. -/
theorem errposNamesTheOffendingByte : Obligations.ErrposNamesTheOffendingByte := by
  unfold Obligations.ErrposNamesTheOffendingByte
  refine ⟨fun p i s t h => ?_, rfl, fun p s hb => ?_, fun p v s => rfl⟩
  · obtain ⟨q, hq⟩ : ∃ q, execOf q i s = .next t := h.elim (fun h => ⟨_, exec_eq i s ▸ h⟩) (fun h => ⟨p, h⟩)
    obtain ⟨herr, hzero⟩ | ⟨cs, e, hin, hfirst, herr⟩ := execOf_errpos hq
    · exact ⟨fun hc => by simp [hc] at herr, fun hc => by simp [hc] at herr, fun _ => hzero⟩
    · refine ⟨fun hc => ?_, fun hc => ?_, fun hc => ?_⟩
      · obtain ⟨rfl, c, hat, hinv⟩ := failsAt_errChar hfirst.1 (herr.symm.trans hc)
        obtain ⟨hlt, hread⟩ := read_of_isInput hin hat
        exact ⟨cs, hin, hfirst, c, hlt, hread, hinv⟩
      · obtain ⟨rfl, hat, hleg⟩ := failsAt_errPad hfirst.1 (herr.symm.trans hc)
        obtain ⟨hlt, hread⟩ := read_of_isInput hin hat
        exact ⟨cs, hin, hfirst, hlt, hread, hleg⟩
      · obtain ⟨c, -, ⟨-, rfl⟩ | ⟨-, -, rfl⟩⟩ := hfirst.1 <;> simp [herr, DecodeError.code] at hc
  · simp [hostAct, hostReadReg, regOfNumber, unreadableWhileBusy, hb]

/-- Settles O50: by the kinds of step; a core step runs while BUSY and leaves DONE. -/
theorem phaseMovesOnlyAsListed : Obligations.PhaseMovesOnlyAsListed := by
  unfold Obligations.PhaseMovesOnlyAsListed
  intro p s t h
  obtain ⟨hturn, i, hd, hx⟩ | ⟨hq, rest, rfl⟩ | ⟨hb, v, i, rest, hq, hd, rfl⟩ | ⟨v, rest, rfl⟩ |
    ⟨-, k, v, rest, -, rfl⟩ | rfl | ⟨r, rest, rfl⟩ := stepOf_next_byAction h
  · exact .inr (.inr (.inr ⟨coreTurn_busy hturn, execOf_phase hx, hturn, i, hd, hx⟩))
  · exact .inr (.inl ⟨rfl, hq⟩)
  · exact .inr (.inr (.inl ⟨hb, rfl, v, i, hq, hd⟩))
  all_goals exact .inl rfl

/-- Settles O51: `ERR` is kept by every step but a core step and reset, and a completion overwrites it. -/
theorem errWrittenOnlyByCompletion : Obligations.ErrWrittenOnlyByCompletion := by
  unfold Obligations.ErrWrittenOnlyByCompletion
  refine ⟨fun p s t h hne => ?_, fun p s t h => ?_, fun p i s t e => ⟨fun h => ?_, execOf_ignores_err e⟩⟩
  · exact (stepOf_result_kept h).resolve_right fun ⟨herr, _, _⟩ => hne herr
  · obtain ⟨bs, -, rfl⟩ := execEncode_next (h.elim id id)
    rfl
  · rw [exec_eq] at h ⊢
    exact execOf_ignores_err e h

/-- Settles O52: by the kinds of step; a write to `IBUF` reads back at its address and nowhere else. -/
theorem buffersWrittenOnlyAsListed : Obligations.BuffersWrittenOnlyAsListed := by
  unfold Obligations.BuffersWrittenOnlyAsListed
  refine fun p s t h => ⟨fun k hne => ?_, fun hne => ?_⟩
  · obtain ⟨-, i, -, hx⟩ | ⟨hq, -⟩ | ⟨-, v, i, rest, -, -, rfl⟩ | ⟨v, rest, rfl⟩ |
      ⟨hb, j, v, rest, hq, rfl⟩ | rfl | ⟨r, rest, rfl⟩ := stepOf_next_byAction h
    case inl => exact absurd (by rw [execOf_ibuf hx]) hne
    case inr.inl => exact .inl hq
    case inr.inr.inr.inr.inl =>
      obtain rfl : k = j := by_contra fun hkj => hne (read_write_other s.ibuf v hkj)
      exact .inr ⟨hb, v, hq, read_write_same s.ibuf k v⟩
    all_goals exact absurd rfl hne
  · exact (stepOf_result_kept h).resolve_right fun ⟨_, hobuf, holen⟩ => hne.elim (fun ho => ho hobuf) (fun hl => hl holen)

/-- An entry of class INVALID is 0x00, and no other is (R34). -/
theorem revRom_eq_zero : ∀ c : Byte,
    decide (revRom c = 0x00#8) = !(entryValid (revRom c) || entryPad (revRom c)) := by decide

/-- Settles O15: a VALID byte is the alphabet's byte at its index; 64 entries are VALID and one is PAD by
count, and the INVALID ones are all the others. -/
theorem romsAreInverse : Obligations.RomsAreInverse := by
  unfold Obligations.RomsAreInverse
  refine ⟨by decide, fun c hc => ?_, by decide, by decide, ?_⟩
  · have hclass : classify c = .valid (entryIndex (revRom c)) := by simp [classify, hc]
    exact (alphaRom_of_valid c _ hclass).symm
  · have hothers : ((List.finRange 256).filter (fun n => entryValid (revRom (BitVec.ofNat 8 n.val)) ||
        entryPad (revRom (BitVec.ofNat 8 n.val)))).length = 65 := by decide
    have hsplit := List.length_eq_length_filter_add (l := List.finRange 256)
      (fun n => entryValid (revRom (BitVec.ofNat 8 n.val)) || entryPad (revRom (BitVec.ofNat 8 n.val)))
    rw [List.length_finRange, hothers] at hsplit
    simp only [revRom_eq_zero]
    omega

/-- Settles O47: each register of `State.reset` holds R40's value. -/
theorem resetState : Obligations.ResetState :=
  ⟨rfl, rfl, rfl, rfl, rfl, rfl, rfl, rfl, rfl, read_nil⟩

/-- The length 0 is legal on every device (R25). -/
theorem legalLength_zero (cap : Capacity) : legalLength cap 0 = true := by
  cases cap with
  | bounded m fits => exact (legalLength_bounded 0).mpr (Nat.zero_le m)
  | unbounded => exact (legalLength_unbounded 0).mpr (by decide)

/-- Settles O54: field by field, with `ILEN` = 0 legal on every device. -/
theorem invariantAtReset : Obligations.InvariantAtReset := fun p =>
  { cmdReserved := by decide
    ilenLegal := legalLength_zero p.maxInLen
    ibufWf := rfl
    ibufWithin := rfl
    obufLength := rfl
    errorEmpties := fun _ => rfl
    errposZero := fun _ => rfl
    idleClean := fun _ => ⟨rfl, rfl, rfl⟩ }

end Sys2Proof.Machine

namespace Sys2Proof.Machine

open Sys2Proof.Safety

/-! ### A command and an unwritten input (R82) -/

theorem inputWritten_iff (s : State) : InputWritten s ↔ ∃ bs, s.input = some bs := by
  rw [← Option.ne_none_iff_exists', ne_eq, input_eq_none]
  simp [InputWritten, Option.isSome_iff_ne_none]

/-- R82: without an input operand both commands fault, before any error code (R239). -/
theorem execOf_of_input_none (p : Params) (i : Instr) {s : State} (h : s.input = none) :
    execOf p i s = .fault .unwrittenInput := by
  cases i with
  | encode => simp [execOf, execEncode, h]
  | decode => simp [execOf, runDecode, h]

/-- With an input operand both commands complete, ENCODE always with OK and DECODE with OK or an error code. -/
theorem execOf_of_input_some (p : Params) (i : Instr) {s : State} {bs : List Byte} (h : s.input = some bs) :
    ∃ t, execOf p i s = .next t := by
  cases i with
  | encode => exact ⟨s.complete (encodeBytes bs), by simp [execOf, execEncode, h]⟩
  | decode =>
    cases hd : decodeBytes p.stripMode bs with
    | error e => exact ⟨s.raiseError e.code e.pos, by simp [execOf, runDecode, h, hd]⟩
    | ok out => exact ⟨s.complete out, by simp [execOf, runDecode, h, hd]⟩

theorem execOf_eq_fault_iff (p : Params) (i : Instr) (s : State) (f : Fault) :
    execOf p i s = .fault f ↔ f = .unwrittenInput ∧ ∃ a < s.ilen.toNat, s.ibuf.read a = none := by
  rw [← input_eq_none]
  cases hi : s.input with
  | none => simp [execOf_of_input_none p i hi]
  | some bs =>
    obtain ⟨t, ht⟩ := execOf_of_input_some p i hi
    simp [ht]

theorem execOf_has_next_iff (p : Params) (i : Instr) (s : State) :
    (∃ t, execOf p i s = .next t) ↔ InputWritten s := by
  rw [inputWritten_iff]
  cases hi : s.input with
  | none => simp [execOf_of_input_none p i hi]
  | some bs => simp [execOf_of_input_some p i hi]

/-! ### Whose turn it is (R76, R281) -/

theorem hostBlocked_iff (p : Params) (s : State) : hostBlocked p s = true ↔ ∃ r, hostStep p s = .refused r := by
  cases h : hostStep p s <;> simp [hostBlocked, h]

/-- It is the core's turn: BUSY, and the free number has run out, or the host has nothing to do, or it
must wait (log 3, log 7). -/
theorem coreTurn_iff (p : Params) (s : State) :
    coreTurn p s = true ↔
      s.phase = .busy ∧ (s.coreLag = 0 ∨ s.hostQueue = [] ∨ ∃ r, hostStep p s = .refused r) := by
  simp [coreTurn, hostBlocked_iff, or_assoc]

theorem hostStep_cons {p : Params} {s : State} {a : HostAction} {rest : List HostAction}
    (hq : s.hostQueue = a :: rest) : hostStep p s = hostAct p a (s.popAction rest) := by
  simp [hostStep, hq]

/-- The host's step never faults: an action does not, and an idle host leaves the state as it is. -/
theorem hostStep_not_fault (p : Params) (s : State) (f : Fault) : hostStep p s ≠ .fault f := by
  cases hq : s.hostQueue with
  | nil => simp [hostStep, hq]
  | cons a rest =>
    rw [hostStep_cons hq]
    exact hostAct_not_fault p a (s.popAction rest) f

/-- At the core's turn a step performs the command in `CMD`, whatever performs the commands. -/
theorem stepWith_pending {p : Params} {run} {s : State} {i : Instr} (hd : decodeCommand s.cmd = .ok i)
    (hb : s.phase = .busy)
    (hturn : s.coreLag = 0 ∨ s.hostQueue = [] ∨ ∃ r, hostStep p s = .refused r) :
    stepWith p run s = run i s :=
  (stepWith_of_coreTurn ((coreTurn_iff p s).mpr ⟨hb, hturn⟩)).trans (coreStepWith_of_decode hd)

/-- No command is pending, so the step is the host's. -/
theorem stepWith_not_busy {p : Params} {run} {s : State} (hb : s.phase ≠ .busy) :
    stepWith p run s = hostStep p s :=
  stepWith_of_hostTurn (Bool.eq_false_iff.mpr fun h => hb (coreTurn_busy h))

/-- With host actions left and the next one having a step, that action is the step, in every phase. -/
theorem stepWith_hostAct {p : Params} {run} {s : State} {a : HostAction} {rest : List HostAction}
    (hq : s.hostQueue = a :: rest) (hlag : s.coreLag ≠ 0) (hstep : ∀ r, hostStep p s ≠ .refused r) :
    stepWith p run s = hostAct p a (s.popAction rest) := by
  have hturn : coreTurn p s ≠ true := by simp [coreTurn_iff, hq, hlag, hstep]
  rw [stepWith_of_hostTurn (Bool.eq_false_iff.mpr hturn), hostStep_cons hq]

/-- A core step faults only by the command it performs. -/
theorem coreStepOf_eq_fault_iff (p : Params) (s : State) (f : Fault) :
    coreStepOf p s = .fault f ↔ ∃ i, decodeCommand s.cmd = .ok i ∧ execOf p i s = .fault f := by
  cases hd : decodeCommand s.cmd with
  | ok i => simp [coreStepOf, coreStepWith_of_decode hd]
  | error r => cases r; simp [coreStepOf, coreStepWith, pendingCommand, hd]

/-! ### The word of a command -/

theorem decodeCommand_encodeCommand (i : Instr) : decodeCommand (encodeCommand i) = .ok i := by
  cases i <;> decide

/-- The table's numbering of a command word is the word itself. -/
theorem tableWord_toNat (w : Word) : tableWord 32 w.toNat = w := by
  simp [tableWord, Nat.mod_eq_of_lt w.isLt]

/-- The next step of a device with a command's word pending performs that command (log 6). -/
theorem stepOf_withFetchWord (p : Params) (s : State) (i : Instr) :
    stepOf p (s.withFetchWord 32 (encodeCommand i).toNat) = execOf p i (s.withPending (encodeCommand i)) := by
  rw [State.withFetchWord, tableWord_toNat]
  exact stepOf_withPending p s (decodeCommand_encodeCommand i)

/-! ### Host accesses to `IBUF` and `OBUF` (R65 to R67) -/

theorem hasAddress_bounded {m : Nat} {h} (a : Nat) : hasAddress (.bounded m h) a = true ↔ a < m := by
  simp [hasAddress]

section Buffers

variable {p : Params} {a : Nat} {s : State}

theorem hostAct_writeIbuf_outOfRange (v : Byte) (h : hasAddress p.maxInLen a = false) :
    hostAct p (.writeIbuf a v) s = .refused .addressOutOfRange := by
  simp [hostAct, hostWriteIbuf, h]

theorem hostAct_writeIbuf_busy (v : Byte) (h : hasAddress p.maxInLen a = true) (hb : s.phase = .busy) :
    hostAct p (.writeIbuf a v) s = .refused .writeWhileBusy := by
  simp [hostAct, hostWriteIbuf, h, hb]

theorem hostAct_writeIbuf (v : Byte) (h : hasAddress p.maxInLen a = true) (hb : s.phase ≠ .busy) :
    hostAct p (.writeIbuf a v) s = .next (s.storeIbuf a v) := by
  simp [hostAct, hostWriteIbuf, h, hb]

theorem hostAct_readIbuf_outOfRange (h : hasAddress p.maxInLen a = false) :
    hostAct p (.readIbuf a) s = .refused .addressOutOfRange := by
  simp [hostAct, hostReadIbuf, h]

theorem hostAct_readIbuf_unwritten (h : hasAddress p.maxInLen a = true) (hr : s.ibuf.read a = none) :
    hostAct p (.readIbuf a) s = .refused .readUnwritten := by
  simp [hostAct, hostReadIbuf, h, hr]

theorem hostAct_readIbuf {b : Byte} (h : hasAddress p.maxInLen a = true) (hr : s.ibuf.read a = some b) :
    hostAct p (.readIbuf a) s = .next (s.reply (.ibuf a b)) := by
  simp [hostAct, hostReadIbuf, h, hr]

theorem hostAct_readObuf_busy (hb : s.phase = .busy) :
    hostAct p (.readObuf a) s = .refused .readWhileBusy := by
  simp [hostAct, hostReadObuf, hb]

theorem hostAct_readObuf_outOfRange (hb : s.phase ≠ .busy) (ha : s.olen.toNat ≤ a) :
    hostAct p (.readObuf a) s = .refused .addressOutOfRange := by
  simp [hostAct, hostReadObuf, hb, ha]

theorem hostAct_readObuf {b : Byte} (hb : s.phase ≠ .busy) (ha : a < s.olen.toNat) (hr : s.obuf[a]? = some b) :
    hostAct p (.readObuf a) s = .next (s.reply (.obuf a b)) := by
  simp [hostAct, hostReadObuf, hb, Nat.not_le.mpr ha, hr]

end Buffers

/-! ### Host writes of registers (R68) -/

theorem regOfNumber_of_ge {r : Nat} (h : 6 ≤ r) : regOfNumber r = none := by
  obtain ⟨k, rfl⟩ := Nat.exists_eq_add_of_le' h
  rfl

section RegisterWrites

variable {p : Params} {r : Nat} {v : Word} {s : State}

theorem hostAct_writeReg_noSuchRegister (h : 6 ≤ r) :
    hostAct p (.writeReg r v) s = .refused .noSuchRegister := by
  simp [hostAct, hostWriteReg, regOfNumber_of_ge h]

theorem hostAct_writeReg_readOnly (h : r = 1 ∨ r = 3 ∨ r = 4 ∨ r = 5) :
    hostAct p (.writeReg r v) s = .refused .readOnly := by
  obtain rfl | rfl | rfl | rfl := h <;> rfl

/-- Register 0 is `CMD`; the write does not depend on the device. -/
theorem hostAct_writeReg_cmd : hostAct p (.writeReg 0 v) s = hostWriteCmd v s := rfl

/-- Register 2 is `ILEN`. -/
theorem hostAct_writeReg_ilen : hostAct p (.writeReg 2 v) s = hostWriteIlen p.maxInLen v s := rfl

/-- The BUSY check of the two writable registers comes before the check of the value. -/
theorem hostAct_writeReg_busy (h : r = 0 ∨ r = 2) (hb : s.phase = .busy) :
    hostAct p (.writeReg r v) s = .refused .writeWhileBusy := by
  obtain rfl | rfl := h
  · rw [hostAct_writeReg_cmd, hostWriteCmd, if_pos hb]
  · rw [hostAct_writeReg_ilen, hostWriteIlen, if_pos hb]

theorem hostWriteCmd_reserved (hb : s.phase ≠ .busy) (h0 : v ≠ 0x00000000#32) (h1 : v ≠ 0x00000001#32) :
    hostWriteCmd v s = .refused .reservedCommand := by
  simp [hostWriteCmd, hb, decodeCommand, h0, h1]

theorem hostWriteCmd_command {i : Instr} (hb : s.phase ≠ .busy) (hd : decodeCommand v = .ok i) :
    hostWriteCmd v s = .next (s.startCommand v) := by
  simp [hostWriteCmd, hb, hd]

/-- Only the write to `ILEN` reads a parameter of the device. -/
theorem hostAct_writeReg_ignores_params (p q : Params) (h : r ≠ 2) :
    hostAct p (.writeReg r v) s = hostAct q (.writeReg r v) s := by
  have hcases : r = 0 ∨ (r = 1 ∨ r = 3 ∨ r = 4 ∨ r = 5) ∨ 6 ≤ r := by omega
  obtain rfl | hro | hge := hcases
  · rw [hostAct_writeReg_cmd, hostAct_writeReg_cmd]
  · rw [hostAct_writeReg_readOnly hro, hostAct_writeReg_readOnly hro]
  · rw [hostAct_writeReg_noSuchRegister hge, hostAct_writeReg_noSuchRegister hge]

end RegisterWrites

/-- The core step after a legal `CMD` write performs the command written, on a device and on this hardware. -/
theorem coreStep_startCommand (p : Params) (s : State) {v : Word} {i : Instr} (hd : decodeCommand v = .ok i) :
    coreStepOf p (s.startCommand v) = execOf p i (s.startCommand v) ∧
      coreStep (s.startCommand v) = exec i (s.startCommand v) :=
  ⟨coreStepWith_of_decode hd, coreStepWith_of_decode hd⟩

/-! ### Host reads of registers (R69) -/

section RegisterReads

variable {p : Params} {r : Nat} {s : State}

theorem hostAct_readReg_noSuchRegister (h : 6 ≤ r) :
    hostAct p (.readReg r) s = .refused .noSuchRegister := by
  simp [hostAct, hostReadReg, regOfNumber_of_ge h]

theorem hostAct_readReg_busy (h : r = 3 ∨ r = 4) (hb : s.phase = .busy) :
    hostAct p (.readReg r) s = .refused .readWhileBusy := by
  obtain rfl | rfl := h <;> simp [hostAct, hostReadReg, regOfNumber, unreadableWhileBusy, hb]

/-- A register a host may read now is returned whole. -/
theorem hostAct_readReg {reg : HostReg} (hr : regOfNumber r = some reg)
    (hread : unreadableWhileBusy reg = false ∨ s.phase ≠ .busy) :
    hostAct p (.readReg r) s = .next (s.reply (.reg reg (regWord p.stripMode reg s))) := by
  obtain h | h := hread <;> simp [hostAct, hostReadReg, hr, h]

end RegisterReads

/-- R24: the two fields of `STATUS` as a number, its reserved bits 0. -/
theorem statusWord_toNat (s : State) : s.statusWord.toNat = s.phase.code.toNat + 4 * s.err.code.toNat := by
  have key : ∀ e f : BitVec 2, (0#28 ++ e ++ f).toNat = f.toNat + 4 * e.toNat := by decide
  exact key s.err.code s.phase.code

/-! ### The statements on memory and the host port (20_memory.md) -/

/-- Settles O32: by whether there is an input operand; this hardware's commands are a device's. -/
theorem unwrittenInputFaults : Obligations.UnwrittenInputFaults := by
  unfold Obligations.UnwrittenInputFaults
  intro i s
  have onDevice (p : Params) : (execOf p i s = .fault .unwrittenInput ↔ ∃ a < s.ilen.toNat, s.ibuf.read a = none) ∧
      ((∃ t, execOf p i s = .next t) ↔ InputWritten s) :=
    ⟨by simp [execOf_eq_fault_iff], execOf_has_next_iff p i s⟩
  rw [exec_eq]
  exact ⟨(onDevice Config.params).1, (onDevice Config.params).2, onDevice⟩

/-- Settles O45: of the host's actions with a next state, the three writes need a block that is not BUSY,
and every other one but reset is a read. -/
theorem busyFixesTheInput : Obligations.BusyFixesTheInput := by
  unfold Obligations.BusyFixesTheInput
  intro p a s t hb hreset h
  obtain ⟨_, _, -, hnb, -⟩ | ⟨_, -, hnb, -⟩ | ⟨_, _, -, hnb, -⟩ | ⟨r, rfl⟩ | ⟨ha, -⟩ := hostAct_next h
  · exact absurd hb hnb
  · exact absurd hb hnb
  · exact absurd hb hnb
  · rfl
  · exact absurd ha hreset

/-- Settles O53: the host's step never faults, and a core step does exactly when its command does. -/
theorem stepFaultsExactlyWhen : Obligations.StepFaultsExactlyWhen := by
  unfold Obligations.StepFaultsExactlyWhen
  intro p s f
  cases hturn : coreTurn p s with
  | true =>
    simp only [stepOf_of_coreTurn hturn, coreStepOf_eq_fault_iff, execOf_eq_fault_iff]
    exact ⟨fun ⟨i, hd, hf, ha⟩ => ⟨hf, trivial, ⟨i, hd⟩, ha⟩, fun ⟨hf, _, ⟨i, hd⟩, ha⟩ => ⟨i, hd, hf, ha⟩⟩
  | false => simp [stepOf_of_hostTurn hturn, hostStep_not_fault]

/-- Settles O39: a write that is not refused is `storeIbuf`, whose memory reads back by the laws of `IBUF`. -/
theorem hostWritesIbuf : Obligations.HostWritesIbuf := by
  unfold Obligations.HostWritesIbuf
  refine ⟨fun m h a => hasAddress_bounded a, fun p a v s => ⟨hostAct_writeIbuf_outOfRange v,
    hostAct_writeIbuf_busy v, fun ha hb => ?_⟩⟩
  exact ⟨s.ibuf.write a v, hostAct_writeIbuf v ha hb, read_write_same s.ibuf a v,
    fun k hk => read_write_other s.ibuf v hk, write_wf s.ibuf a v⟩

/-- Settles O40: the three answers of a read from `IBUF`. -/
theorem hostReadsIbuf : Obligations.HostReadsIbuf := fun _ _ _ =>
  ⟨hostAct_readIbuf_outOfRange, hostAct_readIbuf_unwritten, fun _ => hostAct_readIbuf⟩

/-- Settles O41: an address below `OLEN` is one of `OBUF`'s, which has `OLEN` bytes. -/
theorem hostReadsObuf : Obligations.HostReadsObuf := by
  unfold Obligations.HostReadsObuf
  refine fun p a v s hlen => ⟨hostAct_readObuf_busy, hostAct_readObuf_outOfRange, fun hb ha => ?_, rfl⟩
  have hr : s.obuf[a]? = some (s.obuf[a]'(hlen ▸ ha)) := List.getElem?_eq_getElem (hlen ▸ ha)
  exact ⟨_, hr, hostAct_readObuf hb ha hr⟩

/-- Settles O42: by the equations of a register write; a command word decodes, so the write starts it and
the core step performs it. -/
theorem hostWritesRegister : Obligations.HostWritesRegister := by
  unfold Obligations.HostWritesRegister
  intro m h mode r v s
  refine ⟨hostAct_writeReg_noSuchRegister, hostAct_writeReg_readOnly, hostAct_writeReg_busy, ?_, ?_, ?_, ?_⟩
  · rintro rfl hb hv
    exact hostWriteIlen_illegal hb (by simpa [legalLength] using hv)
  · rintro rfl hb hv
    exact hostWriteIlen_legal hb ((legalLength_bounded _).mpr hv)
  · rintro rfl hb h0 h1
    exact hostWriteCmd_reserved hb h0 h1
  · rintro rfl hb hv
    have hencode : v = 0x00000000#32 → decodeCommand v = .ok .encode := by rintro rfl; decide
    have hdecode : v = 0x00000001#32 → decodeCommand v = .ok .decode := by rintro rfl; decide
    obtain ⟨i, hd⟩ : ∃ i, decodeCommand v = .ok i := hv.elim (fun h0 => ⟨_, hencode h0⟩) (fun h1 => ⟨_, hdecode h1⟩)
    exact ⟨_, _, s.startCommand v, rfl, hostWriteCmd_command hb hd,
      fun h0 => coreStep_startCommand _ s (hencode h0), fun h1 => coreStep_startCommand _ s (hdecode h1)⟩

/-- Settles O43: only the write to `ILEN` reads `MAX_IN_LEN`, and there an unbounded one asks R7's inequality. -/
theorem unboundedCapacity : Obligations.UnboundedCapacity := by
  unfold Obligations.UnboundedCapacity
  refine ⟨fun _ => rfl, fun m h mode r v s => ⟨hostAct_writeReg_ignores_params _ _,
    hostAct_writeReg_busy (.inr rfl), fun hb hv => ?_, fun hb hv => ?_⟩⟩
  · exact hostWriteIlen_legal hb ((legalLength_unbounded _).mpr hv)
  · exact hostWriteIlen_illegal hb (Bool.eq_false_iff.mpr (mt (legalLength_unbounded _).mp hv))

/-- Settles O44: by the equations of a register read, `STATUS` by its two codes and `CONFIG` by its word. -/
theorem hostReadsRegister : Obligations.HostReadsRegister := by
  unfold Obligations.HostReadsRegister
  intro p r s
  refine ⟨hostAct_readReg_noSuchRegister, hostAct_readReg_busy, ?cmd, ?status, ?ilen, ?olen, ?errpos,
    ?nulTrim, ?padCount⟩
  case cmd => exact fun hr => hostAct_readReg (reg := .cmd) (by rw [hr]; rfl) (.inl rfl)
  case status =>
    refine fun hr => ⟨s.statusWord, hostAct_readReg (reg := .status) (by rw [hr]; rfl) (.inl rfl), ?_⟩
    rw [statusWord_toNat]
    cases s.phase <;> cases s.err <;> rfl
  case ilen => exact fun hr => hostAct_readReg (reg := .ilen) (by rw [hr]; rfl) (.inl rfl)
  case olen => exact fun hr hb => hostAct_readReg (reg := .olen) (by rw [hr]; rfl) (.inr hb)
  case errpos => exact fun hr hb => hostAct_readReg (reg := .errpos) (by rw [hr]; rfl) (.inr hb)
  case nulTrim =>
    rintro rfl hmode
    rw [hostAct_readConfig, configWord_eq_zero.mpr hmode, State.reply]
  case padCount =>
    rintro rfl hmode
    rw [hostAct_readConfig, configWord_eq_one.mpr hmode, State.reply]

/-- Settles O48: whose turn it is does not depend on what performs the commands, `exec` or a device's. -/
theorem stepRunsPendingCommand : Obligations.StepRunsPendingCommand :=
  ⟨fun _ => ⟨fun _ => stepWith_pending, stepWith_not_busy, fun _ _ => stepWith_hostAct⟩,
    fun _ _ => ⟨fun _ => stepWith_pending, stepWith_not_busy, fun _ _ => stepWith_hostAct⟩⟩

/-- Settles O49: the numbered word is the command's own, and this hardware steps as a device does. -/
theorem pendingWordRunsNext : Obligations.PendingWordRunsNext := by
  unfold Obligations.PendingWordRunsNext
  refine fun s i => ⟨?_, fun p => stepOf_withFetchWord p s i⟩
  rw [step_eq, exec_eq]
  exact stepOf_withFetchWord Config.params s i

end Sys2Proof.Machine

namespace Sys2Proof.Machine

open Sys2Proof.Safety

/-! ### The command decoder on every word (30_encoding.md section 1) -/

/-- R91: the words that decode to an instruction are exactly the instruction's own word. -/
theorem decodeCommand_eq_ok_iff (w : Word) (i : Instr) : decodeCommand w = .ok i ↔ w = encodeCommand i := by
  refine ⟨fun h => ?_, fun h => h ▸ decodeCommand_encodeCommand i⟩
  unfold decodeCommand at h
  split at h
  next h0 => cases h; exact h0
  next =>
    split at h
    next h1 => cases h; exact h1
    next => cases h

/-- R92: a word is rejected exactly when it is neither of the two command words. -/
theorem decodeCommand_eq_error_iff (w : Word) (r : DecodeReject) :
    decodeCommand w = .error r ↔ w ≠ 0x00000000#32 ∧ w ≠ 0x00000001#32 := by
  cases r
  unfold decodeCommand
  split
  next h0 => simp [h0]
  next h0 =>
    split
    next h1 => simp [h1]
    next h1 => simp [h0, h1]

/-- R90: bits 31:1 of a word are zero exactly when it is one of the two values of `MODE` alone. -/
theorem reservedBitsClear_iff (w : Word) : reservedBitsClear w = true ↔ w = 0x00000000#32 ∨ w = 0x00000001#32 := by
  have hbits : w.extractLsb' 1 31 = 0#31 ↔ w.toNat < 2 := by
    have hlt := w.isLt
    rw [← BitVec.toNat_inj, BitVec.extractLsb'_toNat, Nat.shiftRight_eq_div_pow, BitVec.toNat_ofNat]
    omega
  rw [reservedBitsClear, beq_iff_eq]
  refine hbits.trans ?_
  rw [← BitVec.toNat_inj, ← BitVec.toNat_inj, BitVec.toNat_ofNat, BitVec.toNat_ofNat]
  omega

theorem reservedBitsClear_eq_false_iff (w : Word) :
    reservedBitsClear w = false ↔ w ≠ 0x00000000#32 ∧ w ≠ 0x00000001#32 := by
  rw [← Bool.not_eq_true, reservedBitsClear_iff, not_or]

/-- The word of an instruction has its reserved bits clear (R90). -/
theorem reservedBitsClear_encodeCommand (i : Instr) : reservedBitsClear (encodeCommand i) = true := by
  cases i with
  | encode => exact Laws.CommandWord.encode.2
  | decode => exact Laws.CommandWord.decode.2

/-! ### ENCODE: the characters emitted and the padding (R97, R132) -/

/-- Before padding, every byte ENCODE emits is the alphabet's byte at some index (R121). -/
theorem exists_alphaRom_of_mem_emitChars (bs : List Byte) : ∀ c ∈ emitChars bs, ∃ v : Index, c = alphaRom v := by
  induction bs using byteGroup_induction with
  | nil => simp [emitChars]
  | one b1 => simp [emitChars]
  | two b1 b2 => simp [emitChars]
  | cons3 b1 b2 b3 rest ih => simpa [emitChars] using ih

theorem pad_not_mem_emitChars (bs : List Byte) : pad ∉ emitChars bs := fun hmem => by
  obtain ⟨v, hv⟩ := exists_alphaRom_of_mem_emitChars bs pad hmem
  exact alphaRom_ne_pad v hv.symm

/-- Four characters for a full group, two and three for the tails (R121, R125, R126). -/
theorem length_emitChars (bs : List Byte) : (emitChars bs).length = (4 * bs.length + 2) / 3 := by
  induction bs using byteGroup_induction with
  | nil => rfl
  | one b1 => simp [emitChars]
  | two b1 b2 => simp [emitChars]
  | cons3 b1 b2 b3 rest ih => simp only [emitChars, List.length_cons, ih]; omega

/-- R128: padding fills the last group with `PAD`. -/
theorem padOut_eq_append_replicate {out : List Byte} (h : out.length % 4 ≠ 1) :
    padOut out = out ++ List.replicate ((4 - out.length % 4) % 4) pad := by
  unfold padOut
  split
  next h2 => simp [h2]
  next h2 =>
    split
    next h3 => simp [h3]
    next h3 =>
      have h0 : out.length % 4 = 0 := by omega
      simp [h0]

/-! ### DECODE: what validation accepts (R99, R164 to R166) -/

theorem not_isValid_pad : ¬ IsValid pad := fun ⟨v, hv⟩ => by simp at hv

/-- With two bytes or more still to come a `PAD` is misplaced, so only a VALID byte is accepted. -/
theorem scanFrom_cons_eq_none_iff (i : Nat) (c : Byte) {cs : List Byte} (h : 2 ≤ cs.length) :
    scanFrom i (c :: cs) = none ↔ IsValid c ∧ scanFrom (i + 1) cs = none := by
  cases hclass : classify c with
  | valid v => simp [scanFrom_valid i c cs v hclass, IsValid, hclass]
  | invalid => simp [scanFrom_invalid i c cs hclass, IsValid, hclass]
  | pad =>
    obtain rfl := (classify_eq_pad c).mp hclass
    have hmisplaced : legalPadTail (pad :: cs) = false := by
      simp only [legalPadTail, List.length_cons, Bool.and_eq_false_iff, decide_eq_false_iff_not]
      omega
    simp [scanFrom_pad, hmisplaced, not_isValid_pad]

/-- Everything before the last two bytes must be VALID. -/
theorem scanFrom_append_eq_none_iff (i : Nat) (front : List Byte) {cs : List Byte} (h : 2 ≤ cs.length) :
    scanFrom i (front ++ cs) = none ↔ (∀ c ∈ front, IsValid c) ∧ scanFrom (i + front.length) cs = none := by
  induction front generalizing i with
  | nil => simp
  | cons c front ih =>
    have hlen : 2 ≤ (front ++ cs).length := by rw [List.length_append]; omega
    rw [List.cons_append, scanFrom_cons_eq_none_iff i c hlen, ih, List.forall_mem_cons, and_assoc,
      List.length_cons, Nat.add_right_comm, Nat.add_assoc]

/-- Validation accepts the end of the input (R164). -/
@[simp] theorem scanFrom_nil (i : Nat) : scanFrom i [] = none := rfl

theorem scanFrom_one_eq_none_iff (i : Nat) (c : Byte) : scanFrom i [c] = none ↔ IsValid c ∨ c = pad := by
  cases hclass : classify c with
  | valid v => simp [scanFrom_valid i c [] v hclass, IsValid, hclass]
  | invalid => simp [scanFrom_invalid i c [] hclass, IsValid, hclass, ← classify_eq_pad]
  | pad =>
    obtain rfl := (classify_eq_pad c).mp hclass
    simp [scanFrom_pad, legalPadTail]

/-- The last two bytes hold no `PAD`, one at the end, or two (R165). -/
theorem scanFrom_two_eq_none_iff (i : Nat) (c d : Byte) :
    scanFrom i [c, d] = none ↔ (IsValid c ∧ IsValid d) ∨ (IsValid c ∧ d = pad) ∨ (c = pad ∧ d = pad) := by
  cases hclass : classify c with
  | valid v =>
    have hc : IsValid c := ⟨v, hclass⟩
    have hne : c ≠ pad := fun h => not_isValid_pad (h ▸ hc)
    simp [scanFrom_valid i c [d] v hclass, scanFrom_one_eq_none_iff, hc, hne]
  | invalid => simp [scanFrom_invalid i c [d] hclass, IsValid, hclass, ← classify_eq_pad]
  | pad =>
    obtain rfl := (classify_eq_pad c).mp hclass
    by_cases hd : d = pad
    · simp [scanFrom_pad, legalPadTail, hd]
    · simp [scanFrom_pad, legalPadTail, hd, not_isValid_pad]

/-- A non-empty input in whole groups has a last group. -/
theorem eq_nil_or_exists_lastGroup (cs : List Byte) (h : cs.length % 4 = 0) :
    cs = [] ∨ ∃ (front : List Byte) (c1 c2 c3 c4 : Byte), cs = front ++ [c1, c2, c3, c4] ∧ front.length % 4 = 0 := by
  induction cs, h using charGroup_induction with
  | nil => exact .inl rfl
  | cons4 c1 c2 c3 c4 rest hr h ih =>
    obtain rfl | ⟨front, d1, d2, d3, d4, rfl, hfront⟩ := ih
    · exact .inr ⟨[], c1, c2, c3, c4, rfl, rfl⟩
    · exact .inr ⟨c1 :: c2 :: c3 :: c4 :: front, d1, d2, d3, d4, rfl, by simp only [List.length_cons]; omega⟩

theorem decodeErrorOf_eq_none_iff (cs : List Byte) :
    decodeErrorOf cs = none ↔ cs.length % 4 = 0 ∧ scanFrom 0 cs = none := by
  by_cases h : cs.length % 4 = 0 <;> simp [decodeErrorOf, h]

/-- Acceptance of whole groups followed by one last group (R99). -/
theorem decodeErrorOf_lastGroup_eq_none_iff {body : List Byte} (c1 c2 c3 c4 : Byte) (h : body.length % 4 = 0) :
    decodeErrorOf (body ++ [c1, c2, c3, c4]) = none ↔
      (∀ c ∈ body, IsValid c) ∧ IsValid c1 ∧ IsValid c2 ∧
        ((IsValid c3 ∧ IsValid c4) ∨ (IsValid c3 ∧ c4 = pad) ∨ (c3 = pad ∧ c4 = pad)) := by
  have hlen : (body ++ [c1, c2, c3, c4]).length % 4 = 0 := by simpa using h
  rw [decodeErrorOf_eq_none_iff, scanFrom_append_eq_none_iff 0 body (by simp),
    scanFrom_cons_eq_none_iff _ c1 (by simp), scanFrom_cons_eq_none_iff _ c2 (by simp), scanFrom_two_eq_none_iff]
  exact and_iff_right hlen

/-! ### The statements on the encoding (30_encoding.md) -/

/-- Settles O18: the body is what ENCODE emits before padding, and its length fixes the padding. -/
theorem encodeAlphabetClosure : Obligations.EncodeAlphabetClosure := by
  unfold Obligations.EncodeAlphabetClosure
  intro bs
  have hlen := length_emitChars bs
  refine ⟨emitChars bs, (4 - (emitChars bs).length % 4) % 4, padOut_eq_append_replicate (by omega),
    exists_alphaRom_of_mem_emitChars bs, pad_not_mem_emitChars bs, ?_, ?_, ?_⟩
  all_goals omega

/-- Settles O20: an accepted input is empty or ends in a last group, where validation is the grammar. -/
theorem acceptedInputGrammar : Obligations.AcceptedInputGrammar := by
  unfold Obligations.AcceptedInputGrammar
  refine fun cs => ⟨fun h => ?_, ?_⟩
  · have hlen := ((decodeErrorOf_eq_none_iff cs).mp h).1
    obtain rfl | ⟨body, c1, c2, c3, c4, rfl, hbody⟩ := eq_nil_or_exists_lastGroup cs hlen
    · exact .inl rfl
    · obtain ⟨hvalid, h1, h2, hlast⟩ := (decodeErrorOf_lastGroup_eq_none_iff c1 c2 c3 c4 hbody).mp h
      exact .inr ⟨body, c1, c2, c3, c4, rfl, hbody, hvalid, h1, h2, hlast⟩
  · rintro (rfl | ⟨body, c1, c2, c3, c4, rfl, hbody, hvalid, h1, h2, hlast⟩)
    · rfl
    · exact (decodeErrorOf_lastGroup_eq_none_iff c1 c2 c3 c4 hbody).mpr ⟨hvalid, h1, h2, hlast⟩

/-- Settles O1: a word decodes to an instruction exactly when it is its word, and is rejected otherwise. -/
theorem commandDecoderIsTotal : Obligations.CommandDecoderIsTotal := fun w =>
  ⟨decodeCommand_eq_ok_iff w .encode, decodeCommand_eq_ok_iff w .decode, decodeCommand_eq_error_iff w _⟩

/-- Settles O2: a word that decodes is the instruction's own, whose reserved bits are clear. -/
theorem commandWordsRoundTrip : Obligations.CommandWordsRoundTrip := by
  unfold Obligations.CommandWordsRoundTrip
  refine ⟨fun i _ => decodeCommand_encodeCommand i, fun w i h => ?_, fun i => ?_⟩
  · obtain rfl := (decodeCommand_eq_ok_iff w i).mp h
    exact ⟨rfl, reservedBitsClear_encodeCommand i⟩
  · rw [decodeTableWord, if_pos (le_refl 32), tableWord_toNat, decodeCommand_encodeCommand, Except.toOption]

/-- Settles O3: the fields put together are the two command words and two words that are neither. -/
theorem commandWordsFieldByField : Obligations.CommandWordsFieldByField :=
  ⟨(decodeCommand_eq_ok_iff _ .encode).mpr (by decide), (decodeCommand_eq_ok_iff _ .decode).mpr (by decide),
    (decodeCommand_eq_error_iff _ _).mpr (by decide), (decodeCommand_eq_error_iff _ _).mpr (by decide)⟩

/-- Settles O4: a word with a reserved bit set is no command; the BUSY check comes before the decoder. -/
theorem reservedWordIsRefused : Obligations.ReservedWordIsRefused := by
  unfold Obligations.ReservedWordIsRefused
  refine fun p v s => ⟨reservedBitsClear_eq_false_iff v, fun hv hb => ?_,
    fun _ hb => hostAct_writeReg_busy (.inl rfl) hb⟩
  obtain ⟨h0, h1⟩ := (reservedBitsClear_eq_false_iff v).mp hv
  exact hostWriteCmd_reserved hb h0 h1

end Sys2Proof.Machine

namespace Sys2Proof.Machine

open Sys2Proof.Safety

/-! ### PACK by bits of the bytes and by the helpers (R122, R123) -/

section PackFields

variable (b1 b2 b3 : Byte)

theorem pack_i0 : (pack b1 b2 b3).i0 = b1.extractLsb' 2 6 := by
  change (b1 ++ b2 ++ b3).extractLsb' 18 6 = _
  rw [BitVec.extractLsb'_append_eq_of_le (by decide), BitVec.extractLsb'_append_eq_of_le (by decide)]

/-- The second index lies across the first two bytes. -/
theorem pack_i1 : (pack b1 b2 b3).i1 = b1.extractLsb' 0 2 ++ b2.extractLsb' 4 4 := by
  change (b1 ++ b2 ++ b3).extractLsb' 12 6 = _
  rw [BitVec.extractLsb'_append_eq_of_le (by decide), BitVec.extractLsb'_append_eq_ite, dif_pos (by decide),
    dif_neg (by decide)]
  rfl

/-- The third index lies across the last two bytes. -/
theorem pack_i2 : (pack b1 b2 b3).i2 = b2.extractLsb' 0 4 ++ b3.extractLsb' 6 2 := by
  change (b1 ++ b2 ++ b3).extractLsb' 6 6 = _
  rw [BitVec.extractLsb'_append_eq_ite, dif_pos (by decide), dif_neg (by decide),
    BitVec.extractLsb'_append_eq_of_add_le (by decide)]
  rfl

theorem pack_i3 : (pack b1 b2 b3).i3 = b3.extractLsb' 0 6 :=
  BitVec.extractLsb'_append_eq_of_add_le (by decide)

end PackFields

/-- The bits of `topBits` (R210, R211): the top `n` bits of the byte, moved down. -/
theorem getLsbD_topBits (x : Byte) (n : Fin 9) (i : Nat) : (topBits x n).getLsbD i = x.getLsbD (8 - n.val + i) := by
  unfold topBits
  split
  next h0 => simp [h0]
  next => exact BitVec.getLsbD_ushiftRight x _ i

/-- The mask of `bottomBits` has its `n` low bits set. -/
theorem getLsbD_bottomMask : ∀ (n : Fin 9) (i : Fin 8),
    ((1#8 <<< n.val) - 1#8).getLsbD i.val = decide (i.val < n.val) := by decide

/-- The bits of `bottomBits` (R212, R213): the bottom `n` bits of the byte, where they were. -/
theorem getLsbD_bottomBits (x : Byte) (n : Fin 9) {i : Nat} (hi : i < 8) :
    (bottomBits x n).getLsbD i = (x.getLsbD i && decide (i < n.val)) := by
  unfold bottomBits
  split
  next h8 => simp [h8, hi]
  next => rw [BitVec.getLsbD_and, getLsbD_bottomMask n ⟨i, hi⟩]

/-- `topBits` as a field of the byte, held in a byte. -/
theorem topBits_eq_setWidth (x : Byte) (n : Fin 9) : topBits x n = (x.extractLsb' (8 - n.val) n.val).setWidth 8 := by
  refine BitVec.eq_of_getLsbD_eq fun i hi => ?_
  rw [getLsbD_topBits, BitVec.getLsbD_setWidth, BitVec.getLsbD_extractLsb']
  by_cases hn : i < n.val
  · simp [hi, hn]
  · simp [hn, BitVec.getLsbD_of_ge x (8 - n.val + i) (by omega)]

/-- `bottomBits` as a field of the byte, held in a byte. -/
theorem bottomBits_eq_setWidth (x : Byte) (n : Fin 9) : bottomBits x n = (x.extractLsb' 0 n.val).setWidth 8 := by
  refine BitVec.eq_of_getLsbD_eq fun i hi => ?_
  rw [getLsbD_bottomBits x n hi, BitVec.getLsbD_setWidth, BitVec.getLsbD_extractLsb', Nat.zero_add]
  simp [hi, Bool.and_comm]

/-- Shifting one field above another joins them (R123). -/
theorem bottomBits_shiftLeft_or_topBits (x y : Byte) (m k : Fin 9) :
    (bottomBits x m <<< k.val) ||| topBits y k =
      (x.extractLsb' 0 m.val ++ y.extractLsb' (8 - k.val) k.val).setWidth 8 := by
  refine BitVec.eq_of_getLsbD_eq fun i hi => ?_
  rw [BitVec.getLsbD_or, BitVec.getLsbD_shiftLeft, getLsbD_topBits, BitVec.getLsbD_setWidth, BitVec.getLsbD_append]
  by_cases hk : i < k.val
  · simp [hi, hk]
  · have hx := getLsbD_bottomBits x m (i := i - k.val) (by omega)
    simp [hi, hk, hx, Bool.and_comm, BitVec.getLsbD_of_ge y (8 - k.val + i) (by omega)]

/-- An index held in a byte is below 64. -/
theorem toNat_setWidth_index_lt (v : Index) : (v.setWidth 8).toNat < 64 := by
  rw [BitVec.toNat_setWidth_of_le (by decide)]
  exact v.isLt

/-! ### The layout of an ENCODE output (R121, R125 to R127) -/

/-- R121: every three input bytes become four characters, so dropping whole groups commutes with ENCODE. -/
theorem drop_encodeBytes (g : Nat) (bs : List Byte) :
    (encodeBytes bs).drop (4 * g) = encodeBytes (bs.drop (3 * g)) := by
  induction bs using byteGroup_induction generalizing g with
  | nil => simp [encodeBytes_nil]
  | one b1 =>
    cases g with
    | zero => rfl
    | succ g => simp [encodeBytes_one, encodeBytes_nil, Nat.mul_succ]
  | two b1 b2 =>
    cases g with
    | zero => rfl
    | succ g => simp [encodeBytes_two, encodeBytes_nil, Nat.mul_succ]
  | cons3 b1 b2 b3 rest ih =>
    cases g with
    | zero => rfl
    | succ g => simpa [encodeBytes_cons3, Nat.mul_succ] using ih g

/-- R124: ENCODE rounds the input up to whole groups. -/
theorem length_encodeBytes (bs : List Byte) : (encodeBytes bs).length = 4 * ((bs.length + 2) / 3) := by
  have hlen := length_emitChars bs
  rw [encodeBytes, padOut_eq_append_replicate (by omega), List.length_append, List.length_replicate]
  omega

theorem drop_eq_cons_of_getElem? {bs : List Byte} {i : Nat} {b : Byte} (h : bs[i]? = some b) :
    bs.drop i = b :: bs.drop (i + 1) := by
  obtain ⟨hi, rfl⟩ := List.getElem?_eq_some_iff.mp h
  exact List.drop_eq_getElem_cons hi

/-- R121, R122: the characters of the full group `g`, and those of what follows it. -/
theorem drop_encodeBytes_fullGroup {bs : List Byte} {g : Nat} {b1 b2 b3 : Byte} (h1 : bs[3 * g]? = some b1)
    (h2 : bs[3 * g + 1]? = some b2) (h3 : bs[3 * g + 2]? = some b3) :
    (encodeBytes bs).drop (4 * g) =
      alphaRom (pack b1 b2 b3).i0 :: alphaRom (pack b1 b2 b3).i1 :: alphaRom (pack b1 b2 b3).i2 ::
        alphaRom (pack b1 b2 b3).i3 :: encodeBytes (bs.drop (3 * g + 3)) := by
  rw [drop_encodeBytes, drop_eq_cons_of_getElem? h1, drop_eq_cons_of_getElem? h2, drop_eq_cons_of_getElem? h3,
    encodeBytes_cons3]

/-- R125, R128: what stands after the full groups for a one-byte tail. -/
theorem drop_encodeBytes_oneTail {bs : List Byte} {b1 : Byte} (h : bs.length % 3 = 1)
    (h1 : bs[3 * (bs.length / 3)]? = some b1) :
    (encodeBytes bs).drop (4 * (bs.length / 3)) =
      [alphaRom (pack b1 0x00#8 0x00#8).i0, alphaRom (b1.extractLsb' 0 2 ++ 0#4), pad, pad] := by
  have hend : bs.drop (3 * (bs.length / 3) + 1) = [] := List.drop_eq_nil_of_le (by omega)
  rw [drop_encodeBytes, drop_eq_cons_of_getElem? h1, hend, encodeBytes_one, pack_i1]
  rfl

/-- R126, R128: what stands after the full groups for a two-byte tail. -/
theorem drop_encodeBytes_twoTail {bs : List Byte} {b1 b2 : Byte} (h : bs.length % 3 = 2)
    (h1 : bs[3 * (bs.length / 3)]? = some b1) (h2 : bs[3 * (bs.length / 3) + 1]? = some b2) :
    (encodeBytes bs).drop (4 * (bs.length / 3)) =
      [alphaRom (pack b1 b2 0x00#8).i0, alphaRom (pack b1 b2 0x00#8).i1,
        alphaRom (b2.extractLsb' 0 4 ++ 0#2), pad] := by
  have hend : bs.drop (3 * (bs.length / 3) + 2) = [] := List.drop_eq_nil_of_le (by omega)
  rw [drop_encodeBytes, drop_eq_cons_of_getElem? h1, drop_eq_cons_of_getElem? h2, hend, encodeBytes_two, pack_i2]
  rfl

theorem getElem?_eq_of_drop_eq {cs ds : List Byte} {n : Nat} (h : cs.drop n = ds) (k : Nat) :
    cs[n + k]? = ds[k]? := by
  rw [← h, List.getElem?_drop]

/-! ### DECODE accepts what ENCODE writes (R133) -/

theorem isValid_alphaRom (v : Index) : IsValid (alphaRom v) := ⟨v, classify_alphaRom v⟩

@[simp] theorem scanFrom_alphaRom (i : Nat) (v : Index) (cs : List Byte) :
    scanFrom i (alphaRom v :: cs) = scanFrom (i + 1) cs :=
  scanFrom_valid i (alphaRom v) cs v (classify_alphaRom v)

/-- Validation finds no failing position in an ENCODE output: alphabet bytes, then `PAD` in the last two
positions only. -/
theorem scanFrom_encodeBytes (i : Nat) (bs : List Byte) : scanFrom i (encodeBytes bs) = none := by
  induction bs using byteGroup_induction generalizing i with
  | nil => rw [encodeBytes_nil, scanFrom_nil]
  | one b1 => simp [encodeBytes_one, scanFrom_two_eq_none_iff]
  | two b1 b2 => simp [encodeBytes_two, scanFrom_one_eq_none_iff]
  | cons3 b1 b2 b3 rest ih => simp [encodeBytes_cons3, ih]

theorem decodeErrorOf_encodeBytes (bs : List Byte) : decodeErrorOf (encodeBytes bs) = none := by
  rw [decodeErrorOf_eq_none_iff, length_encodeBytes]
  exact ⟨by omega, scanFrom_encodeBytes 0 bs⟩

/-! ### The commands -/

/-- R130, R131: ENCODE of an input that has been written completes with its encoding, on every device. -/
theorem execOf_encode_of_input (p : Params) {s : State} {bs : List Byte} (h : s.input = some bs) :
    execOf p .encode s = .next (s.complete (encodeBytes bs)) := by
  simp [execOf, execEncode, h]

/-- The input operand is read from `ILEN` and `IBUF[0..ILEN)` alone (R93). -/
theorem input_congr {s t : State} (hlen : s.ilen = t.ilen)
    (hread : ∀ a < s.ilen.toNat, s.ibuf.read a = t.ibuf.read a) : s.input = t.input := by
  refine Option.ext fun bs => ?_
  rw [input_eq_some, input_eq_some, ← hlen]
  exact and_congr_right fun _ => forall₂_congr fun a ha => by rw [hread a ha]

/-- With `ILEN` = 0 the input is empty, whatever `IBUF` holds. -/
theorem input_of_ilen_zero {s : State} (h : s.ilen = 0#32) : s.input = some [] := by
  simp [input_eq_some, h]

/-- R129, R162: both commands complete the empty input with an empty result, on every device. -/
theorem execOf_of_input_nil (p : Params) (i : Instr) {s : State} (h : s.input = some []) :
    execOf p i s = .next (s.complete []) := by
  cases i with
  | encode => rw [execOf_encode_of_input p h, encodeBytes_nil]
  | decode =>
    have hstrip : strip p.stripMode [] 0 = [] := by cases p.stripMode <;> rfl
    have hrun : execOf p .decode s = .next (s.complete (strip p.stripMode [] 0)) :=
      runDecode_of_accepted p.stripMode h rfl
    rw [hrun, hstrip]

/-! ### The statements on the encoder (40_encode.md) -/

/-- Settles O9: the four fields of the group, and UNPACK inverts PACK on both sides. -/
theorem packFields : Obligations.PackFields := by
  unfold Obligations.PackFields
  refine ⟨fun b1 b2 b3 => ⟨pack_i0 b1 b2 b3, pack_i1 b1 b2 b3, pack_i2 b1 b2 b3, pack_i3 b1 b2 b3⟩, ?_⟩
  exact Function.bijective_iff_has_inverse.mpr ⟨unpack, fun o => unpack_pack o.y1 o.y2 o.y3, pack_unpack⟩

/-- Settles O10: each helper expression is a field of the bytes, which is the index PACK cuts there. -/
theorem packByHelpers : Obligations.PackByHelpers := by
  unfold Obligations.PackByHelpers
  intro b1 b2 b3
  have index {v : Index} {x : Byte} (h : v.setWidth 8 = x) : v.setWidth 8 = x ∧ x.toNat < 64 :=
    ⟨h, h ▸ toNat_setWidth_index_lt v⟩
  refine ⟨index ?_, index ?_, index ?_, index ?_⟩
  · rw [pack_i0]; exact (topBits_eq_setWidth b1 6).symm
  · rw [pack_i1]; exact (bottomBits_shiftLeft_or_topBits b1 b2 2 4).symm
  · rw [pack_i2]; exact (bottomBits_shiftLeft_or_topBits b2 b3 4 2).symm
  · rw [pack_i3]; exact (bottomBits_eq_setWidth b3 6).symm

/-- Settles O16: the output from `4g` on is the encoding of the input from `3g` on. -/
theorem encodeLayout : Obligations.EncodeLayout := by
  unfold Obligations.EncodeLayout
  refine fun bs => ⟨length_encodeBytes bs, fun g b1 b2 b3 h1 h2 h3 => ?_, fun h => ?_,
    fun h b1 => drop_encodeBytes_oneTail h, fun h b1 b2 => drop_encodeBytes_twoTail h⟩
  · have hchar := getElem?_eq_of_drop_eq (drop_encodeBytes_fullGroup h1 h2 h3)
    exact ⟨hchar 0, hchar 1, hchar 2, hchar 3⟩
  · rw [length_encodeBytes]; omega

/-- Settles O17: padding fills the last group, and each tail emits two or three characters. -/
theorem paddingRule : Obligations.PaddingRule := by
  unfold Obligations.PaddingRule
  intro bs
  have hlen := length_emitChars bs
  have hpad : encodeBytes bs = _ := padOut_eq_append_replicate (out := emitChars bs) (by omega)
  refine ⟨fun h2 => ?_, fun h3 => ?_, fun h0 => ?_, by omega⟩
  · simpa [h2] using hpad
  · simpa [h3] using hpad
  · simpa [h0] using hpad

/-- Settles O19: the last character's index ends in the zero bits put below the tail's. -/
theorem encodeCanonicalTail : Obligations.EncodeCanonicalTail := by
  unfold Obligations.EncodeCanonicalTail
  refine fun bs => ⟨fun h => ?_, fun h => ?_, decodeErrorOf_encodeBytes bs⟩
  · obtain ⟨b1, h1⟩ : ∃ b1, bs[3 * (bs.length / 3)]? = some b1 := ⟨_, List.getElem?_eq_getElem (by omega)⟩
    exact ⟨b1.extractLsb' 0 2 ++ 0#4, getElem?_eq_of_drop_eq (drop_encodeBytes_oneTail h h1) 1,
      BitVec.extractLsb'_append_eq_right⟩
  · obtain ⟨b1, h1⟩ : ∃ b1, bs[3 * (bs.length / 3)]? = some b1 := ⟨_, List.getElem?_eq_getElem (by omega)⟩
    obtain ⟨b2, h2⟩ : ∃ b2, bs[3 * (bs.length / 3) + 1]? = some b2 := ⟨_, List.getElem?_eq_getElem (by omega)⟩
    exact ⟨b2.extractLsb' 0 4 ++ 0#2, getElem?_eq_of_drop_eq (drop_encodeBytes_twoTail h h1 h2) 2,
      BitVec.extractLsb'_append_eq_right⟩

/-- Settles O29: a written input is an input operand, which ENCODE completes; R7's inequality bounds the length. -/
theorem encodeCompletes : Obligations.EncodeCompletes := by
  unfold Obligations.EncodeCompletes
  intro s hw
  obtain ⟨bs, hi⟩ := (inputWritten_iff s).mp hw
  have hin : IsInput s bs := (input_eq_some s bs).mp hi
  refine ⟨bs, hin, ⟨_, rfl, ?_, fun p => execOf_encode_of_input p hi⟩, fun m hm hle => ?_⟩
  · exact (exec_eq .encode s).trans (execOf_encode_of_input Config.params hi)
  · obtain ⟨hlen, -⟩ := hin
    rw [BitVec.toNat_ofNat, length_encodeBytes, hlen]
    exact Nat.mod_eq_of_lt (by omega)

/-- Settles O34: the two states have one input operand, and so one encoding. -/
theorem encodeDependsOnInputOnly : Obligations.EncodeDependsOnInputOnly := by
  unfold Obligations.EncodeDependsOnInputOnly
  intro s t s' hlen hread h
  obtain ⟨bs, hi, rfl⟩ := execEncode_next h
  have ht (p : Params) : execOf p .encode t = .next (t.complete (encodeBytes bs)) :=
    execOf_encode_of_input p ((input_congr hlen hread).symm.trans hi)
  exact ⟨_, (exec_eq .encode t).trans (ht Config.params), ⟨rfl, rfl, rfl, rfl, rfl⟩, ht⟩

/-- Settles O36: neither completion writes any of these fields. -/
theorem commandFrame : Obligations.CommandFrame := by
  unfold Obligations.CommandFrame
  intro p i s t h
  obtain ⟨out, rfl⟩ | ⟨e, rfl⟩ := h.elim exec_next execOf_next
  all_goals exact ⟨rfl, rfl, fun _ => rfl, rfl, rfl, rfl, rfl, rfl⟩

/-- Settles O33: `ILEN` = 0 is the empty input, which both commands complete. -/
theorem emptyInputCompletes : Obligations.EmptyInputCompletes := by
  unfold Obligations.EmptyInputCompletes
  intro i s h
  have hnext (p : Params) : execOf p i s = .next (s.complete []) := execOf_of_input_nil p i (input_of_ilen_zero h)
  exact ⟨_, rfl, (exec_eq i s).trans (hnext Config.params), hnext⟩

end Sys2Proof.Machine

namespace Sys2Proof.Machine

open Sys2Proof.Safety

/-! ### UNPACK by bits of the indices and by the helpers (R170, R171) -/

section UnpackFields

variable (v : Sextets)

theorem unpack_y1 : (unpack v).y1 = v.i0 ++ v.i1.extractLsb' 4 2 := by
  change (v.i0 ++ v.i1 ++ v.i2 ++ v.i3).extractLsb' 16 8 = _
  rw [BitVec.extractLsb'_append_eq_of_le (by decide), BitVec.extractLsb'_append_eq_of_le (by decide),
    BitVec.extractLsb'_append_eq_ite, dif_pos (by decide), dif_neg (by decide)]
  exact congrArg (· ++ v.i1.extractLsb' 4 2) (BitVec.extractLsb'_eq_self (x := v.i0))

/-- The second byte lies across the second and third indices. -/
theorem unpack_y2 : (unpack v).y2 = v.i1.extractLsb' 0 4 ++ v.i2.extractLsb' 2 4 := by
  change (v.i0 ++ v.i1 ++ v.i2 ++ v.i3).extractLsb' 8 8 = _
  rw [BitVec.extractLsb'_append_eq_of_le (by decide), BitVec.extractLsb'_append_eq_ite, dif_pos (by decide),
    dif_neg (by decide), BitVec.extractLsb'_append_eq_of_add_le (by decide)]
  rfl

/-- The third byte lies across the last two indices. -/
theorem unpack_y3 : (unpack v).y3 = v.i2.extractLsb' 0 2 ++ v.i3 := by
  change (v.i0 ++ v.i1 ++ v.i2 ++ v.i3).extractLsb' 0 8 = _
  rw [BitVec.extractLsb'_append_eq_ite, dif_pos (by decide), dif_neg (by decide),
    BitVec.extractLsb'_append_eq_of_add_le (by decide)]
  exact congrArg (v.i2.extractLsb' 0 2 ++ ·) (BitVec.extractLsb'_eq_self (x := v.i3))

end UnpackFields

/-- A field above another one, as a number. -/
theorem toNat_append_eq_mul_add {m n : Nat} (x : BitVec m) (y : BitVec n) :
    (x ++ y).toNat = x.toNat * 2 ^ n + y.toNat := by
  rw [BitVec.toNat_append, ← Nat.shiftLeft_add_eq_or_of_lt y.isLt, Nat.shiftLeft_eq]

/-- A field of a word, as a number. -/
theorem toNat_extractLsb'_eq_div_mod {w : Nat} (x : BitVec w) (start len : Nat) :
    (x.extractLsb' start len).toNat = x.toNat / 2 ^ start % 2 ^ len := by
  rw [BitVec.extractLsb'_toNat, Nat.shiftRight_eq_div_pow]

/-- A field at the top of the byte that holds a shifted index is the field at the top of the index (R215). -/
theorem extractLsb'_shifted_index (v : Index) {k : Nat} (hk : k ≤ 6) :
    (v.setWidth 8 <<< 2).extractLsb' (8 - k) k = v.extractLsb' (6 - k) k := by
  refine BitVec.eq_of_getLsbD_eq fun i hi => ?_
  rw [BitVec.getLsbD_extractLsb', BitVec.getLsbD_extractLsb', BitVec.getLsbD_shiftLeft, BitVec.getLsbD_setWidth,
    show 8 - k + i - 2 = 6 - k + i by omega]
  have hnotlow : ¬ 8 - k + i < 2 := by omega
  have hshifted : 8 - k + i < 8 := by omega
  have hindex : 6 - k + i < 8 := by omega
  simp [hnotlow, hshifted, hindex]

/-- The helpers on two indices held in bytes, the second one shifted: they join the low bits of the first to
the high bits of the second (R171). -/
theorem bottomBits_shiftLeft_or_topBits_index (u v : Index) {m k : Fin 9} (hm : m.val ≤ 6) (hk : k.val ≤ 6) :
    (bottomBits (u.setWidth 8) m <<< k.val) ||| topBits (v.setWidth 8 <<< 2) k =
      (u.extractLsb' 0 m.val ++ v.extractLsb' (6 - k.val) k.val).setWidth 8 := by
  rw [bottomBits_shiftLeft_or_topBits, extractLsb'_shifted_index v hk, BitVec.extractLsb'_setWidth_of_le (by omega)]

/-- The high bits of the byte that holds an index are 0 (R171, C5). -/
theorem topBits_index_eq_zero (v : Index) {k : Fin 9} (hk : k.val ≤ 2) : topBits (v.setWidth 8) k = 0x00#8 := by
  refine BitVec.eq_of_getLsbD_eq fun i hi => ?_
  rw [getLsbD_topBits, BitVec.getLsbD_setWidth, BitVec.getLsbD_of_ge v _ (by omega), Bool.and_false, BitVec.getLsbD_zero]

/-- The six low bits of the byte that holds an index are all of it. -/
theorem bottomBits_six_index (v : Index) : bottomBits (v.setWidth 8) 6 = v.setWidth 8 := by
  rw [bottomBits_eq_setWidth, BitVec.extractLsb'_setWidth_of_le (by decide)]
  exact congrArg (BitVec.setWidth 8) BitVec.extractLsb'_eq_self

/-- The six high bits of the byte that holds a shifted index are the index. -/
theorem topBits_six_index (v : Index) : topBits (v.setWidth 8 <<< 2) 6 = v.setWidth 8 := by
  have hfield : (v.setWidth 8 <<< 2).extractLsb' 2 6 = v.extractLsb' 0 6 := extractLsb'_shifted_index v (le_refl 6)
  rw [topBits_eq_setWidth]
  exact congrArg (BitVec.setWidth 8) (hfield.trans BitVec.extractLsb'_eq_self)

/-! ### Validation answers the first failing position and no other (R167) -/

/-- Validation stops at a position that fails. -/
theorem scanFrom_drop_of_failsAt {cs : List Byte} {i : Nat} {e : DecodeError} (h : FailsAt cs i e) :
    scanFrom i (cs.drop i) = some e := by
  have hlegal := legalPadTail_drop cs i
  obtain ⟨c, hc, ⟨hinv, rfl⟩ | ⟨hpad, hnot, rfl⟩⟩ := h <;> rw [drop_eq_cons_of_getElem? hc] at hlegal ⊢
  · exact scanFrom_invalid i c _ hinv
  · obtain rfl := (classify_eq_pad c).mp hpad
    rw [scanFrom_pad, if_neg (mt hlegal.mp hnot)]

/-- Validation goes on past a position that does not fail. -/
theorem scanFrom_drop_of_not_failsAt {cs : List Byte} {i : Nat} (hi : i < cs.length) (h : ∀ e, ¬ FailsAt cs i e) :
    scanFrom i (cs.drop i) = scanFrom (i + 1) (cs.drop (i + 1)) := by
  have hlegal := legalPadTail_drop cs i
  have hc : cs[i]? = some cs[i] := List.getElem?_eq_getElem hi
  rw [drop_eq_cons_of_getElem? hc] at hlegal ⊢
  generalize cs[i] = c at *
  cases hclass : classify c with
  | valid v => exact scanFrom_valid i c _ v hclass
  | invalid => exact absurd ((failsAt_iff hc _).mpr (.inl ⟨hclass, rfl⟩)) (h _)
  | pad =>
    have hat : LegalPadAt cs i := by_contra fun hnot => h _ ((failsAt_iff hc _).mpr (.inr ⟨hclass, hnot, rfl⟩))
    obtain rfl := (classify_eq_pad c).mp hclass
    rw [scanFrom_pad, if_pos (hlegal.mpr hat)]

/-- Validation comes to every position with no failure before it. -/
theorem scanFrom_reaches {cs : List Byte} {i : Nat} (hi : i ≤ cs.length) (h : ∀ j < i, ∀ e, ¬ FailsAt cs j e) :
    scanFrom 0 cs = scanFrom i (cs.drop i) := by
  induction i with
  | zero => rfl
  | succ i ih =>
    rw [ih (by omega) fun j hj => h j (by omega)]
    exact scanFrom_drop_of_not_failsAt hi (h i (Nat.lt_succ_self i))

/-- R167: with a legal length, the error is the one of the first position that fails. -/
theorem decodeErrorOf_eq_some_iff {cs : List Byte} (hlen : cs.length % 4 = 0) (e : DecodeError) :
    decodeErrorOf cs = some e ↔ ∃ i, FirstFailure cs i e := by
  have hscan : decodeErrorOf cs = scanFrom 0 cs := by simp [decodeErrorOf, hlen]
  rw [hscan]
  constructor
  · intro h
    exact ⟨e.pos, firstFailure_of_scanFrom 0 (fun j hj => absurd hj (Nat.not_lt_zero j)) h⟩
  · rintro ⟨i, hfail, hbefore⟩
    rw [scanFrom_reaches (failsAt_pos hfail).2.le hbefore]
    exact scanFrom_drop_of_failsAt hfail

/-- R161: a length that is no multiple of 4 is reported before anything else. -/
theorem decodeErrorOf_of_badLength {cs : List Byte} (hlen : cs.length % 4 ≠ 0) : decodeErrorOf cs = some .length := by
  simp [decodeErrorOf, hlen]

/-! ### The padding of an accepted input (R168) -/

/-- Bytes other than `PAD`, then `k` of them: the pad count is `k`. -/
theorem padCountOf_append_replicate {body : List Byte} (h : pad ∉ body) (k : Nat) :
    padCountOf (body ++ List.replicate k pad) = k := by
  have hbody : body.countP (fun c => decide (c = pad)) = 0 :=
    List.countP_eq_zero.mpr fun c hc => by simpa using ne_of_mem_of_not_mem hc h
  simp [padCountOf, List.countP_append, List.countP_replicate, hbody]

/-- R168: an accepted input has at most two `PAD`, all of them at its end. -/
theorem accepted_eq_append_replicate {cs : List Byte} (h : decodeErrorOf cs = none) :
    ∃ (body : List Byte) (k : Nat), cs = body ++ List.replicate k pad ∧ pad ∉ body ∧ k ≤ 2 := by
  obtain rfl | ⟨body, c1, c2, c3, c4, rfl, -, hbody, h1, h2, hlast⟩ := (acceptedInputGrammar cs).mp h
  · exact ⟨[], 0, rfl, List.not_mem_nil, by decide⟩
  · have hpad (tail : List Byte) (htail : ∀ c ∈ tail, IsValid c) : pad ∉ body ++ tail := fun hmem =>
      not_isValid_pad ((List.mem_append.mp hmem).elim (hbody pad) (htail pad))
    obtain ⟨h3, h4⟩ | ⟨h3, rfl⟩ | ⟨rfl, rfl⟩ := hlast
    · exact ⟨body ++ [c1, c2, c3, c4], 0, by simp, hpad _ (by simp [h1, h2, h3, h4]), by decide⟩
    · exact ⟨body ++ [c1, c2, c3], 1, by simp, hpad _ (by simp [h1, h2, h3]), by decide⟩
    · exact ⟨body ++ [c1, c2], 2, by simp, hpad _ (by simp [h1, h2]), by decide⟩

/-! ### The recovered bytes (R169, R172) -/

/-- R172: three bytes for every group. -/
theorem length_recoverBytes {cs : List Byte} (h : cs.length % 4 = 0) :
    (recoverBytes cs).length = 3 * cs.length / 4 := by
  induction cs, h using charGroup_induction with
  | nil => rfl
  | cons4 c1 c2 c3 c4 rest hr h ih => simp only [recoverBytes_cons4, List.length_cons, ih]; omega

/-- R172: whole groups in front are recovered on their own. -/
theorem recoverBytes_append {front : List Byte} (h : front.length % 4 = 0) (cs : List Byte) :
    recoverBytes (front ++ cs) = recoverBytes front ++ recoverBytes cs := by
  induction front, h using charGroup_induction with
  | nil => rfl
  | cons4 c1 c2 c3 c4 rest hr h ih => simp only [List.cons_append, recoverBytes_cons4, ih]

/-- R172: what is recovered after the first `g` groups is recovered from the characters after them. -/
theorem drop_recoverBytes (g : Nat) {cs : List Byte} (h : cs.length % 4 = 0) :
    (recoverBytes cs).drop (3 * g) = recoverBytes (cs.drop (4 * g)) := by
  induction cs, h using charGroup_induction generalizing g with
  | nil => simp [recoverBytes]
  | cons4 c1 c2 c3 c4 rest hr h ih =>
    cases g with
    | zero => rfl
    | succ g => simpa [recoverBytes_cons4, Nat.mul_succ] using ih g

/-! ### The padding stripper (R181, R182) -/

theorem nulTrim_eq_rdropWhile (raw : List Byte) : nulTrim raw = raw.rdropWhile (fun b => decide (b = 0x00#8)) := rfl

/-- R181: all that NUL_TRIM removes is zero bytes at the end. -/
theorem exists_eq_nulTrim_append_replicate (raw : List Byte) : ∃ k, raw = nulTrim raw ++ List.replicate k 0x00#8 := by
  have htail := List.eq_replicate_of_mem (l := raw.rtakeWhile (fun b => decide (b = 0x00#8))) (a := 0x00#8)
    fun b hb => by simpa using List.mem_rtakeWhile_imp hb
  exact ⟨_, by rw [nulTrim_eq_rdropWhile, ← htail, List.rdropWhile_append_rtakeWhile]⟩

/-- R181: NUL_TRIM leaves no zero byte at the end. -/
theorem getLast?_nulTrim_ne_zero (raw : List Byte) : (nulTrim raw).getLast? ≠ some 0x00#8 := fun h => by
  have hne : nulTrim raw ≠ [] := fun h0 => by simp [h0] at h
  have hlast : (nulTrim raw).getLast hne = 0x00#8 := by simpa [List.getLast?_eq_some_getLast hne] using h
  exact List.rdropWhile_last_not (fun b => decide (b = 0x00#8)) raw hne (decide_eq_true hlast)

/-- R181: NUL_TRIM is the identity exactly where there is no zero byte at the end. -/
theorem nulTrim_eq_self_iff (raw : List Byte) : nulTrim raw = raw ↔ raw.getLast? ≠ some 0x00#8 := by
  refine ⟨fun h => h ▸ getLast?_nulTrim_ne_zero raw, fun h => ?_⟩
  obtain rfl | ⟨front, b, rfl⟩ := List.eq_nil_or_concat' raw
  · rfl
  · exact nulTrim_append_nonzero front b (by simpa using h)

theorem nulTrim_append_replicate (raw : List Byte) (k : Nat) :
    nulTrim (raw ++ List.replicate k 0x00#8) = nulTrim raw := by
  induction k with
  | zero => rw [List.replicate_zero, List.append_nil]
  | succ k ih => rw [List.replicate_succ', ← List.append_assoc, nulTrim_append_zero, ih]

theorem nulTrim_eq_self_iff_nil_or (raw : List Byte) : nulTrim raw = raw ↔ raw = [] ∨ raw.getLast? ≠ some 0x00#8 :=
  (nulTrim_eq_self_iff raw).trans (or_iff_right_of_imp fun h => by simp [h]).symm

/-- NUL_TRIM stops at the last byte that is not zero. -/
theorem nulTrim_append_nonzero_zeros (raw : List Byte) {b : Byte} (h : b ≠ 0x00#8) (k : Nat) :
    nulTrim (raw ++ b :: List.replicate k 0x00#8) = raw ++ [b] := by
  rw [List.append_cons, nulTrim_append_replicate, nulTrim_append_nonzero raw b h]

/-- R185: NUL_TRIM removes exactly the bytes after `front` where these are zero and it stops there. -/
theorem nulTrim_append_eq_left_iff (front tail : List Byte) :
    nulTrim (front ++ tail) = front ↔
      tail = List.replicate tail.length 0x00#8 ∧ front.getLast? ≠ some 0x00#8 := by
  constructor
  · intro h
    obtain ⟨k, hk⟩ := exists_eq_nulTrim_append_replicate (front ++ tail)
    rw [h, List.append_cancel_left_eq] at hk
    exact ⟨by rw [hk, List.length_replicate], h ▸ getLast?_nulTrim_ne_zero (front ++ tail)⟩
  · rintro ⟨htail, hfront⟩
    rw [htail, nulTrim_append_replicate, (nulTrim_eq_self_iff front).mpr hfront]

/-- A prefix does not end in `b` where it is empty or the byte before its end is not `b`. -/
theorem getLast?_take_ne_iff {raw : List Byte} {n : Nat} (hn : n ≤ raw.length) (b : Byte) :
    (raw.take n).getLast? ≠ some b ↔ n = 0 ∨ raw[n - 1]? ≠ some b := by
  by_cases h0 : n = 0
  · simp [h0]
  · have hlast : raw[n - 1]? = some raw[n - 1] := List.getElem?_eq_getElem (by omega)
    simp [List.getLast?_take, h0, hlast]

theorem length_nulTrim_le (raw : List Byte) : (nulTrim raw).length ≤ raw.length :=
  (List.rdropWhile_prefix _ raw).length_le

/-- R173: the stripper never lengthens what was recovered. -/
theorem length_strip_le (mode : StripMode) (raw : List Byte) (p : Nat) : (strip mode raw p).length ≤ raw.length := by
  cases mode with
  | nulTrim => exact length_nulTrim_le raw
  | padCount => exact List.length_take_le' _ raw

/-! ### The result of DECODE (R160, R173) -/

/-- DECODE of an accepted input gives the stripped bytes (R160). -/
theorem decodeBytes_of_accepted (mode : StripMode) {cs : List Byte} (h : decodeErrorOf cs = none) :
    decodeBytes mode cs = .ok (strip mode (recoverBytes cs) (padCountOf cs)) := by
  simp [decodeBytes, h]

theorem decodeBytes_eq_ok_iff (mode : StripMode) (cs out : List Byte) :
    decodeBytes mode cs = .ok out ↔
      decodeErrorOf cs = none ∧ strip mode (recoverBytes cs) (padCountOf cs) = out := by
  cases h : decodeErrorOf cs <;> simp [decodeBytes, h]

/-- R173: no more than three bytes for every four characters. -/
theorem length_strip_recoverBytes_le (mode : StripMode) {cs : List Byte} (h : decodeErrorOf cs = none) (p : Nat) :
    (strip mode (recoverBytes cs) p).length ≤ 3 * cs.length / 4 :=
  length_recoverBytes ((decodeErrorOf_eq_none_iff cs).mp h).1 ▸ length_strip_le mode (recoverBytes cs) p

/-- The padding bytes are there to be removed: an accepted input recovers at least its pad count. -/
theorem padCountOf_le_length_recoverBytes {cs : List Byte} (h : decodeErrorOf cs = none) :
    padCountOf cs ≤ (recoverBytes cs).length := by
  have hlen := ((decodeErrorOf_eq_none_iff cs).mp h).1
  have hcount : padCountOf cs ≤ cs.length := List.countP_le_length
  obtain ⟨body, k, rfl, hbody, hk⟩ := accepted_eq_append_replicate h
  rw [padCountOf_append_replicate hbody] at hcount ⊢
  rw [length_recoverBytes hlen]
  omega

/-! ### Decoding an encoding (R184) -/

theorem groupIndices_alphaRom (v0 v1 v2 v3 : Index) :
    groupIndices (alphaRom v0) (alphaRom v1) (alphaRom v2) (alphaRom v3) = ⟨v0, v1, v2, v3⟩ := by
  simp [groupIndices]

/-- Two `PAD` stand for the two indices that PACK makes of missing bytes (R125, R169). -/
theorem groupIndices_oneTail (b1 : Byte) :
    groupIndices (alphaRom (pack b1 0x00#8 0x00#8).i0) (alphaRom (pack b1 0x00#8 0x00#8).i1) pad pad =
      pack b1 0x00#8 0x00#8 :=
  Sextets.ext (charIndex_alphaRom _) (charIndex_alphaRom _)
    (by rw [pack_i2]; exact charIndex_pad) (by rw [pack_i3]; exact charIndex_pad)

/-- One `PAD` stands for the index that PACK makes of a missing byte (R126, R169). -/
theorem groupIndices_twoTail (b1 b2 : Byte) :
    groupIndices (alphaRom (pack b1 b2 0x00#8).i0) (alphaRom (pack b1 b2 0x00#8).i1)
      (alphaRom (pack b1 b2 0x00#8).i2) pad = pack b1 b2 0x00#8 :=
  Sextets.ext (charIndex_alphaRom _) (charIndex_alphaRom _) (charIndex_alphaRom _)
    (by rw [pack_i3]; exact charIndex_pad)

/-- What DECODE recovers from an encoding before stripping: the bytes, then a zero for every `PAD`. -/
theorem recoverBytes_encodeBytes (bs : List Byte) :
    recoverBytes (encodeBytes bs) = bs ++ List.replicate (padCountOf (encodeBytes bs)) 0x00#8 := by
  induction bs using byteGroup_induction with
  | nil => rfl
  | one b1 =>
    rw [encodeBytes_one, recoverBytes_cons4, groupIndices_oneTail, unpack_pack]
    simp [padCountOf, alphaRom_ne_pad, recoverBytes, List.replicate]
  | two b1 b2 =>
    rw [encodeBytes_two, recoverBytes_cons4, groupIndices_twoTail, unpack_pack]
    simp [padCountOf, alphaRom_ne_pad, recoverBytes]
  | cons3 b1 b2 b3 rest ih =>
    rw [encodeBytes_cons3, recoverBytes_cons4, groupIndices_alphaRom, unpack_pack, ih]
    simp [padCountOf, alphaRom_ne_pad]

/-- R184: PAD_COUNT gives the encoded bytes back. -/
theorem strip_padCount_encodeBytes (bs : List Byte) :
    strip .padCount (recoverBytes (encodeBytes bs)) (padCountOf (encodeBytes bs)) = bs := by
  simp [strip, recoverBytes_encodeBytes]

/-- R184: NUL_TRIM gives the encoded bytes back without their trailing zeros. -/
theorem strip_nulTrim_encodeBytes (bs : List Byte) :
    strip .nulTrim (recoverBytes (encodeBytes bs)) (padCountOf (encodeBytes bs)) = nulTrim bs := by
  rw [strip, recoverBytes_encodeBytes, nulTrim_append_replicate]

/-! ### A last group with unused bits (R174) -/

/-- The three bytes of the last group, by bits of its indices. -/
theorem recoverBytes_lastGroup (c1 c2 c3 c4 : Byte) :
    recoverBytes [c1, c2, c3, c4] =
      [charIndex c1 ++ (charIndex c2).extractLsb' 4 2,
        (charIndex c2).extractLsb' 0 4 ++ (charIndex c3).extractLsb' 2 4,
        (charIndex c3).extractLsb' 0 2 ++ charIndex c4] := by
  rw [recoverBytes_cons4, unpack_y1, unpack_y2, unpack_y3]
  rfl

/-- A field that is not zero makes the byte it stands in not zero. -/
theorem append_ne_zero_of_left {m n : Nat} {x : BitVec m} (h : x ≠ 0#m) (y : BitVec n) : x ++ y ≠ 0#(m + n) :=
  fun h0 => h (by rw [← BitVec.extractLsb'_append_eq_left (a := x) (b := y), h0, BitVec.extractLsb'_zero])

/-- R174 for a last group V V PAD PAD after whole groups. -/
theorem recoverBytes_twoPad {body : List Byte} (h : body.length % 4 = 0) (v1 v2 : Index) :
    recoverBytes (body ++ [alphaRom v1, alphaRom v2, pad, pad]) =
      recoverBytes body ++ [v1 ++ v2.extractLsb' 4 2, v2.extractLsb' 0 4 ++ 0#4, 0x00#8] := by
  rw [recoverBytes_append h, recoverBytes_lastGroup, charIndex_alphaRom, charIndex_alphaRom, charIndex_pad]
  rfl

/-- R174 for a last group V V V PAD after whole groups. -/
theorem recoverBytes_onePad {body : List Byte} (h : body.length % 4 = 0) (v1 v2 v3 : Index) :
    recoverBytes (body ++ [alphaRom v1, alphaRom v2, alphaRom v3, pad]) =
      recoverBytes body ++
        [v1 ++ v2.extractLsb' 4 2, v2.extractLsb' 0 4 ++ v3.extractLsb' 2 4, v3.extractLsb' 0 2 ++ 0#6] := by
  rw [recoverBytes_append h, recoverBytes_lastGroup, charIndex_alphaRom, charIndex_alphaRom, charIndex_alphaRom,
    charIndex_pad]

/-- NUL_TRIM keeps what was recovered up to the last byte that is not zero. -/
theorem decodeBytes_nulTrim_of_nonzero {cs raw : List Byte} (front : List Byte) {b : Byte} (k : Nat)
    (he : decodeErrorOf cs = none) (hraw : recoverBytes cs = raw ++ (front ++ b :: List.replicate k 0x00#8))
    (hb : b ≠ 0x00#8) : decodeBytes .nulTrim cs = .ok (raw ++ (front ++ [b])) := by
  rw [decodeBytes_of_accepted _ he, hraw, strip, ← List.append_assoc, nulTrim_append_nonzero_zeros _ hb,
    List.append_assoc]

/-! ### DECODE as a command -/

/-- R232: DECODE of an input that fails validation is the error completion, in either strip mode. -/
theorem runDecode_of_rejected (mode : StripMode) {s : State} {cs : List Byte} {e : DecodeError}
    (hi : s.input = some cs) (he : decodeErrorOf cs = some e) :
    runDecode mode s = .next (s.raiseError e.code e.pos) := by
  simp [runDecode, hi, decodeBytes, he]

/-- R187: two states with one input operand have one result of DECODE in one strip mode. -/
theorem runDecode_congr {mode : StripMode} {s t s' : State} (hinput : s.input = t.input)
    (h : runDecode mode s = .next s') : ∃ t', runDecode mode t = .next t' ∧ SameResult s' t' := by
  obtain ⟨cs, hi, ⟨e, he, rfl⟩ | ⟨he, rfl⟩⟩ := runDecode_next h <;> rw [hinput] at hi
  · exact ⟨_, runDecode_of_rejected mode hi he, rfl, rfl, rfl, rfl, rfl⟩
  · exact ⟨_, runDecode_of_accepted mode hi he, rfl, rfl, rfl, rfl, rfl⟩

/-- A length or a position up to the length of a command's input fits a register. -/
theorem toNat_ofNat_of_le_input {s : State} {cs : List Byte} (hin : IsInput s cs) {n : Nat} (hn : n ≤ cs.length) :
    (BitVec.ofNat 32 n).toNat = n :=
  Nat.mod_eq_of_lt (hn.trans_lt (hin.1 ▸ s.ilen.isLt))

/-! ### The statements on the decoder (41_decode.md) -/

/-- Settles O11: each byte is two fields of the indices put together, and a field is a quotient and remainder. -/
theorem unpackFields : Obligations.UnpackFields := by
  unfold Obligations.UnpackFields
  refine ⟨fun v => ⟨?_, ?_, ?_⟩, fun v => ⟨unpack_y1 v, unpack_y2 v, unpack_y3 v⟩, unpack_pack⟩
  · rw [unpack_y1, toNat_append_eq_mul_add, toNat_extractLsb'_eq_div_mod]; omega
  · rw [unpack_y2, toNat_append_eq_mul_add, toNat_extractLsb'_eq_div_mod, toNat_extractLsb'_eq_div_mod]; omega
  · rw [unpack_y3, toNat_append_eq_mul_add, toNat_extractLsb'_eq_div_mod]; omega

/-- Settles O12: a whole index is its six low or, shifted, its six high bits, and the helpers join fields. -/
theorem unpackByHelpers : Obligations.UnpackByHelpers := by
  unfold Obligations.UnpackByHelpers
  refine ⟨by decide, fun v => ⟨?_, ?_, ?_, topBits_index_eq_zero v.i1 (le_refl 2)⟩⟩
  · have hjoin := bottomBits_shiftLeft_or_topBits_index v.i0 v.i1 (m := 6) (k := 2) (by decide) (by decide)
    rw [bottomBits_six_index] at hjoin
    rw [unpack_y1]
    exact (hjoin.trans (congrArg (· ++ v.i1.extractLsb' 4 2) (BitVec.extractLsb'_eq_self (x := v.i0)))).symm
  · rw [unpack_y2]
    exact (bottomBits_shiftLeft_or_topBits_index v.i1 v.i2 (m := 4) (k := 4) (by decide) (by decide)).symm
  · have hjoin := bottomBits_shiftLeft_or_topBits_index v.i2 v.i3 (m := 2) (k := 6) (by decide) (by decide)
    rw [topBits_six_index] at hjoin
    rw [unpack_y3]
    exact (hjoin.trans (congrArg (v.i2.extractLsb' 0 2 ++ ·) (BitVec.extractLsb'_eq_self (x := v.i3)))).symm

/-- Settles O21: validation comes to the first position that fails, and stops there. -/
theorem firstFailingPositionIsReported : Obligations.FirstFailingPositionIsReported :=
  fun _ => ⟨decodeErrorOf_of_badLength, decodeErrorOf_eq_some_iff⟩

/-- Settles O22: the accepted inputs end in at most two `PAD`, which are all it counts. -/
theorem padCountIsTrailing : Obligations.PadCountIsTrailing := by
  unfold Obligations.PadCountIsTrailing
  intro cs h
  obtain ⟨body, k, rfl, hbody, hk⟩ := accepted_eq_append_replicate h
  rw [padCountOf_append_replicate hbody]
  exact ⟨hk, body, rfl, hbody⟩

/-- Settles O23: `raw` from `3g` on is what the characters from `4g` on give. -/
theorem rawLayout : Obligations.RawLayout := by
  unfold Obligations.RawLayout
  refine ⟨charIndex_alphaRom, charIndex_pad, fun cs h => ⟨length_recoverBytes h, fun g c1 c2 c3 c4 h1 h2 h3 h4 => ?_⟩⟩
  have hdrop := drop_recoverBytes g h
  rw [drop_eq_cons_of_getElem? h1, drop_eq_cons_of_getElem? h2, drop_eq_cons_of_getElem? h3,
    drop_eq_cons_of_getElem? h4, recoverBytes_cons4] at hdrop
  have hbyte := getElem?_eq_of_drop_eq hdrop
  exact ⟨hbyte 0, hbyte 1, hbyte 2⟩

/-- Settles O24: what NUL_TRIM removes is a run of zeros that leaves none, what PAD_COUNT removes is a length. -/
theorem stripperRemovesTheTail : Obligations.StripperRemovesTheTail := by
  unfold Obligations.StripperRemovesTheTail
  refine ⟨rfl, fun raw p => ?_, fun raw p hp => ?_, by decide⟩
  · obtain ⟨k, hk⟩ := exists_eq_nulTrim_append_replicate raw
    exact ⟨k, hk, getLast?_nulTrim_ne_zero raw⟩
  · exact ⟨raw.drop (raw.length - p), (List.take_append_drop _ raw).symm, by rw [List.length_drop]; omega⟩

/-- Settles O25: three bytes for every four characters, less what the stripper removes. -/
theorem decodeOutputLength : Obligations.DecodeOutputLength := by
  unfold Obligations.DecodeOutputLength
  refine ⟨fun cs out => ⟨fun h => ?_, fun h => ?_⟩, fun mode m cs out big hm h => ?_⟩
  · obtain ⟨he, rfl⟩ := (decodeBytes_eq_ok_iff _ cs out).mp h
    exact length_strip_recoverBytes_le .nulTrim he _
  · obtain ⟨he, rfl⟩ := (decodeBytes_eq_ok_iff _ cs out).mp h
    rw [strip, List.length_take, length_recoverBytes ((decodeErrorOf_eq_none_iff cs).mp he).1]
    omega
  · obtain ⟨he, rfl⟩ := (decodeBytes_eq_ok_iff _ cs out).mp h
    have hle := length_strip_recoverBytes_le mode he (padCountOf cs)
    refine ⟨by omega, fun h1 hbig => ?_⟩
    rw [length_encodeBytes, hbig]
    omega

/-- Settles O26: the unused bits are the top of the byte before the padding bytes, where NUL_TRIM stops. -/
theorem unusedBitsFlowThrough : Obligations.UnusedBitsFlowThrough := by
  unfold Obligations.UnusedBitsFlowThrough
  refine ⟨fun body v1 v2 v3 hlen hbody => ⟨?_, ?_⟩, by decide, by decide⟩
  · have he : decodeErrorOf (body ++ [alphaRom v1, alphaRom v2, pad, pad]) = none :=
      (decodeErrorOf_lastGroup_eq_none_iff _ _ _ _ hlen).mpr
        ⟨hbody, isValid_alphaRom v1, isValid_alphaRom v2, .inr (.inr ⟨rfl, rfl⟩)⟩
    have hraw := recoverBytes_twoPad hlen v1 v2
    exact ⟨he, hraw, fun hbits =>
      decodeBytes_nulTrim_of_nonzero [v1 ++ v2.extractLsb' 4 2] 1 he hraw (append_ne_zero_of_left hbits 0#4)⟩
  · have he : decodeErrorOf (body ++ [alphaRom v1, alphaRom v2, alphaRom v3, pad]) = none :=
      (decodeErrorOf_lastGroup_eq_none_iff _ _ _ _ hlen).mpr
        ⟨hbody, isValid_alphaRom v1, isValid_alphaRom v2, .inr (.inl ⟨isValid_alphaRom v3, rfl⟩)⟩
    have hraw := recoverBytes_onePad hlen v1 v2 v3
    exact ⟨he, hraw, fun hbits =>
      decodeBytes_nulTrim_of_nonzero [v1 ++ v2.extractLsb' 4 2, v2.extractLsb' 0 4 ++ v3.extractLsb' 2 4] 0 he hraw
        (append_ne_zero_of_left hbits 0#6)⟩

/-- Settles O27: PAD_COUNT's result is also NUL_TRIM's where the removed bytes are zero and the one before
them is not. -/
theorem stripModesAgreeExactlyWhen : Obligations.StripModesAgreeExactlyWhen := by
  unfold Obligations.StripModesAgreeExactlyWhen
  refine ⟨fun cs h => ?_, by decide⟩
  have hle := padCountOf_le_length_recoverBytes h
  rw [decodeBytes_of_accepted _ h, decodeBytes_of_accepted _ h, Except.ok.injEq, strip, strip]
  generalize recoverBytes cs = raw at *
  generalize padCountOf cs = p at *
  have hagree := nulTrim_append_eq_left_iff (raw.take (raw.length - p)) (raw.drop (raw.length - p))
  rw [List.take_append_drop, List.length_drop, Nat.sub_sub_self hle,
    getLast?_take_ne_iff (Nat.sub_le _ p), Nat.sub_eq_zero_iff_le] at hagree
  rw [hagree, hle.ge_iff_eq']

/-- Settles O28: an encoding recovers the bytes and a zero for each `PAD`, which either mode removes. -/
theorem codecRoundTrip : Obligations.CodecRoundTrip := by
  unfold Obligations.CodecRoundTrip
  intro b
  have he := decodeErrorOf_encodeBytes b
  rw [decodeBytes_of_accepted _ he, decodeBytes_of_accepted _ he, strip_padCount_encodeBytes, strip_nulTrim_encodeBytes]
  exact ⟨rfl, rfl, nulTrim_eq_self_iff_nil_or b⟩

/-- Settles O30: the two completions of DECODE; the output is no longer than the input, so it fits `OLEN`. -/
theorem decodeCompletes : Obligations.DecodeCompletes := by
  unfold Obligations.DecodeCompletes
  intro s cs hin
  have hi := input_eq_of_isInput hin
  refine ⟨fun he => ⟨fun p => ⟨runDecode_of_accepted p.stripMode hi he, ?_⟩, runDecode_of_accepted .nulTrim hi he⟩,
    fun e he => ⟨fun p => runDecode_of_rejected p.stripMode hi he, runDecode_of_rejected .nulTrim hi he⟩⟩
  have hlen := length_strip_recoverBytes_le p.stripMode he (padCountOf cs)
  exact toNat_ofNat_of_le_input hin (by omega)

/-- Settles O31: the error raised is the length's or the first failing position's, which is one of the input's. -/
theorem decodeErrorsComplete : Obligations.DecodeErrorsComplete := by
  unfold Obligations.DecodeErrorsComplete
  intro s cs hin
  have hi := input_eq_of_isInput hin
  have raises {e} (he : decodeErrorOf cs = some e) : ∃ t, t = s.raiseError e.code e.pos ∧
      exec .decode s = .next t ∧ ∀ p, execOf p .decode s = .next t :=
    ⟨_, rfl, runDecode_of_rejected .nulTrim hi he, fun p => runDecode_of_rejected p.stripMode hi he⟩
  have position {i e} (hfirst : FirstFailure cs i e) : (BitVec.ofNat 32 i).toNat = i :=
    toNat_ofNat_of_le_input hin (failsAt_pos hfirst.1).2.le
  rw [← hin.1]
  exact ⟨fun hlen => raises (decodeErrorOf_of_badLength hlen),
    fun hlen i hfirst => ⟨raises ((decodeErrorOf_eq_some_iff hlen _).mpr ⟨i, hfirst⟩), position hfirst⟩,
    fun hlen i hfirst => ⟨raises ((decodeErrorOf_eq_some_iff hlen _).mpr ⟨i, hfirst⟩), position hfirst⟩⟩

/-- Settles O35: the two states have one input operand. -/
theorem decodeDependsOnInputOnly : Obligations.DecodeDependsOnInputOnly := by
  unfold Obligations.DecodeDependsOnInputOnly
  intro s t s' hlen hread
  have hinput := input_congr hlen hread
  refine ⟨fun p q hpq h => ?_, fun h => runDecode_congr hinput h⟩
  simp only [execOf, hpq] at h ⊢
  exact runDecode_congr hinput h

/-- Settles O38: the input of DECODE is the encoding, which strips to the bytes. -/
theorem coreRoundTrip : Obligations.CoreRoundTrip := by
  unfold Obligations.CoreRoundTrip
  intro p s t u b hin hfits hencode hlen hread
  have hi := input_eq_of_isInput hin
  rw [exec_eq, execOf_encode_of_input _ hi, execOf_encode_of_input _ hi, or_self, Host.Outcome.next.injEq] at hencode
  subst hencode
  have holen : (BitVec.ofNat 32 (encodeBytes b).length).toNat = (encodeBytes b).length := by
    rw [BitVec.toNat_ofNat, length_encodeBytes, hin.1]
    exact Nat.mod_eq_of_lt (by omega)
  have hcopied : u.input = some (encodeBytes b) :=
    (input_eq_some u _).mpr ⟨by rw [hlen]; exact holen.symm, by rw [hlen]; exact hread⟩
  have hrun (mode : StripMode) := runDecode_of_accepted mode hcopied (decodeErrorOf_encodeBytes b)
  have hcount : runDecode .padCount u = .next (u.complete b) := strip_padCount_encodeBytes b ▸ hrun .padCount
  have htrim : runDecode .nulTrim u = .next (u.complete (nulTrim b)) := strip_nulTrim_encodeBytes b ▸ hrun .nulTrim
  have hself := nulTrim_eq_self_iff_nil_or b
  refine ⟨fun hp => ⟨u.complete b, ?_, rfl, rfl, rfl, toNat_ofNat_of_le_input hin (le_refl _)⟩,
    fun hp => ⟨u.complete (nulTrim b), ?_, rfl, rfl, rfl, toNat_ofNat_of_le_input hin (length_nulTrim_le b), hself⟩,
    ⟨u.complete (nulTrim b), htrim, rfl, rfl, rfl, hself⟩⟩
  · exact (congrArg (runDecode · u) hp).trans hcount
  · exact (congrArg (runDecode · u) hp).trans htrim

end Sys2Proof.Machine

namespace Sys2Proof.Machine

/-! ### The bit helpers as quotients and remainders (42_bit_helpers.md) -/

/-- R210: the top `n` bits of a byte are its quotient; in the case `n = 0` of R211 that quotient is 0. -/
theorem toNat_topBits (x : Byte) (n : Fin 9) : (topBits x n).toNat = x.toNat / 2 ^ (8 - n.val) := by
  unfold topBits
  split
  next h0 => rw [h0]; exact (Nat.div_eq_of_lt x.isLt).symm
  next => rw [BitVec.toNat_ushiftRight, Nat.shiftRight_eq_div_pow]

theorem toNat_topBits_lt (x : Byte) (n : Fin 9) : (topBits x n).toNat < 2 ^ n.val := by
  rw [topBits_eq_setWidth, BitVec.toNat_setWidth_of_le (Nat.le_of_lt_succ n.isLt)]
  exact BitVec.isLt _

/-- R212: the bottom `n` bits of a byte are its remainder. -/
theorem toNat_bottomBits (x : Byte) (n : Fin 9) : (bottomBits x n).toNat = x.toNat % 2 ^ n.val := by
  rw [bottomBits_eq_setWidth, BitVec.toNat_setWidth_of_le (Nat.le_of_lt_succ n.isLt), toNat_extractLsb'_eq_div_mod,
    Nat.pow_zero, Nat.div_one]

theorem toNat_bottomBits_lt (x : Byte) (n : Fin 9) : (bottomBits x n).toNat < 2 ^ n.val := by
  rw [toNat_bottomBits]
  exact Nat.mod_lt _ (Nat.two_pow_pos _)

/-- R216: the quotient moved up and the remainder below it make the byte again; at 16 bits the move loses no bit. -/
theorem setWidth_eq_topBits_or_bottomBits (x : Byte) (k : Fin 9) :
    x.setWidth 16 = ((topBits x k).setWidth 16 <<< (8 - k.val)) ||| (bottomBits x (8 - k)).setWidth 16 := by
  have hcompl : (8 - k : Fin 9).val = 8 - k.val := Fin.sub_val_of_le (Fin.le_last k)
  have hlow := toNat_bottomBits_lt x (8 - k)
  have hhigh := Nat.div_mul_le_self x.toNat (2 ^ (8 - k.val))
  have hx := x.isLt
  rw [hcompl] at hlow
  refine BitVec.eq_of_toNat_eq ?_
  rw [BitVec.toNat_or, BitVec.toNat_shiftLeft, BitVec.toNat_setWidth_of_le (by decide),
    BitVec.toNat_setWidth_of_le (by decide), BitVec.toNat_setWidth_of_le (by decide), toNat_topBits,
    Nat.mod_eq_of_lt (by rw [Nat.shiftLeft_eq]; omega), ← Nat.shiftLeft_add_eq_or_of_lt hlow, Nat.shiftLeft_eq,
    toNat_bottomBits, hcompl, Nat.div_add_mod']

/-- Two bits above a byte's index are free, so moving the index up by them loses none (R215). -/
theorem toNat_shifted_index (v : Index) : (v.setWidth 8 <<< 2).toNat = v.toNat * 2 ^ 2 := by
  have hv := v.isLt
  rw [BitVec.toNat_shiftLeft, BitVec.toNat_setWidth_of_le (by decide), Nat.shiftLeft_eq]
  exact Nat.mod_eq_of_lt (by omega)

/-- R215: the top bits of an index are those of the byte that holds it shifted. -/
theorem toNat_topBits_shifted_index (v : Index) {k : Fin 9} (hk : k.val ≤ 6) :
    (topBits (v.setWidth 8 <<< 2) k).toNat = v.toNat / 2 ^ (6 - k.val) := by
  rw [toNat_topBits, toNat_shifted_index, show 8 - k.val = 6 - k.val + 2 by omega, Nat.pow_add,
    Nat.mul_div_mul_right _ _ (by decide)]

/-! ### The statements on the bit helpers (42_bit_helpers.md) -/

/-- Settles O5: the helpers are a quotient and a remainder, and the edge cases are branches of their own. -/
theorem helpersReturnTheirBits : Obligations.HelpersReturnTheirBits :=
  ⟨fun x n => ⟨toNat_topBits x n, toNat_topBits_lt x n, toNat_bottomBits x n, toNat_bottomBits_lt x n⟩,
    fun _ => ⟨rfl, rfl⟩, by decide, by decide⟩

/-- Settles O6: the guard `n < 9` decides between the answer and the refusal. -/
theorem helpersRefuseOutOfDomain : Obligations.HelpersRefuseOutOfDomain := by
  unfold Obligations.HelpersRefuseOutOfDomain
  refine fun x n => ⟨fun h => ?_, fun h => ?_⟩
  · have hin : n < 9 := Nat.lt_succ_of_le h
    exact ⟨dif_pos hin, dif_pos hin⟩
  · have hout : ¬ n < 9 := Nat.not_lt_of_le h
    exact ⟨dif_neg hout, dif_neg hout⟩

/-- Settles O7: all of the byte is shifted by 0 places, none of it is under the empty mask, and the rest is
quotient and remainder. -/
theorem helperLaws : Obligations.HelperLaws := by
  unfold Obligations.HelperLaws
  refine fun x => ⟨BitVec.ushiftRight_zero x, BitVec.and_zero, fun k => ?_⟩
  exact ⟨setWidth_eq_topBits_or_bottomBits x k, toNat_topBits_lt x k, toNat_bottomBits_lt x k⟩

/-- Settles O8: an index has the value of the byte that holds it, and shifted it fills the byte's six high bits. -/
theorem helpersOnIndices : Obligations.HelpersOnIndices := by
  unfold Obligations.HelpersOnIndices
  refine fun v k _ hk => ⟨toNat_topBits_shifted_index v hk, ?_, topBits_index_eq_zero v⟩
  rw [toNat_bottomBits, BitVec.toNat_setWidth_of_le (by decide)]

end Sys2Proof.Machine

namespace Sys2Proof.Machine

open Sys2Proof.Safety

/-! ### What comes before a pending core step (70_reset_and_hazards.md sections 3 and 4) -/

/-- While BUSY the host's step is an action that has one (log 7), and unless that action is reset it changes
nothing of the block (R78). -/
theorem stepOf_hostTurn_busy {p : Params} {s : State} (hb : s.phase = .busy) (hreset : ∀ a ∈ s.hostQueue, a ≠ .reset)
    (hturn : coreTurn p s = false) :
    ∃ a rest replies, s.hostQueue = a :: rest ∧ stepOf p s = .next { s.popAction rest with replies := replies } := by
  have hnot := Bool.eq_false_iff.mp hturn
  simp only [ne_eq, coreTurn_iff, hb, true_and, not_or] at hnot
  obtain ⟨-, hne, hstep⟩ := hnot
  obtain ⟨a, rest, hq⟩ := List.exists_cons_of_ne_nil hne
  have ha : a ≠ .reset := hreset a (hq ▸ List.mem_cons_self)
  rw [hostStep_cons hq] at hstep
  refine ⟨a, rest, ?_⟩
  rw [stepOf_of_hostTurn hturn, hostStep_cons hq]
  cases hact : hostAct p a (s.popAction rest) with
  | next t =>
    have hkept := busyFixesTheInput p a (s.popAction rest) t hb ha hact
    exact ⟨t.replies, hq, congrArg _ hkept⟩
  | fault f => exact absurd hact (hostAct_not_fault p a (s.popAction rest) f)
  | refused r => exact absurd ⟨r, hact⟩ hstep

/-- R281: with no reset queued, a BUSY device comes to the core's turn within the free number of host
actions, its command and input as they were. By induction on that number, which each action lowers. -/
theorem device_run_to_coreTurn (p : Params) {s : State} (hb : s.phase = .busy)
    (hreset : ∀ a ∈ s.hostQueue, a ≠ .reset) :
    ∃ k ≤ s.coreLag, ∃ t, Host.Core.run (device p) k s = .next t ∧ coreTurn p t = true ∧
      t.cmd = s.cmd ∧ t.ilen = s.ilen ∧ t.ibuf = s.ibuf := by
  generalize hn : s.coreLag = n
  induction n generalizing s with
  | zero => exact ⟨0, le_rfl, s, device_run_zero p s, (coreTurn_iff p s).mpr ⟨hb, .inl hn⟩, rfl, rfl, rfl⟩
  | succ n ih =>
    cases hturn : coreTurn p s with
    | true => exact ⟨0, Nat.zero_le _, s, device_run_zero p s, hturn, rfl, rfl, rfl⟩
    | false =>
      obtain ⟨a, rest, replies, hq, hstep⟩ := stepOf_hostTurn_busy hb hreset hturn
      have hreset' : ∀ b ∈ rest, b ≠ .reset := fun b hmem => hreset b (hq ▸ List.mem_cons_of_mem a hmem)
      obtain ⟨k, hk, t, hrun, hreached⟩ :=
        ih (s := { s.popAction rest with replies := replies }) hb hreset' (Nat.sub_eq_of_eq_add hn)
      exact ⟨k + 1, Nat.succ_le_succ hk, t, (device_run_succ k hstep).trans hrun, hreached⟩

/-- R276: with a host action left before the core step, a read of `STATUS` is the step, and returns BUSY
with the previous command's `ERR`. -/
theorem stepOf_readStatus_busy (p : Params) {s : State} {rest : List HostAction} (hb : s.phase = .busy)
    (hlag : s.coreLag ≠ 0) (hq : s.hostQueue = .readReg 1 :: rest) :
    stepOf p s = .next ((s.popAction rest).reply (.reg .status (0#28 ++ s.err.code ++ 1#2))) := by
  have hword : (s.popAction rest).statusWord = 0#28 ++ s.err.code ++ 1#2 := by
    rw [State.statusWord, popAction_phase, hb]; rfl
  have hread : hostAct p (.readReg 1) (s.popAction rest) =
      .next ((s.popAction rest).reply (.reg .status (0#28 ++ s.err.code ++ 1#2))) :=
    hword ▸ hostAct_readReg (reg := .status) rfl (.inl rfl)
  have hstep : ∀ r, hostStep p s ≠ .refused r := by simp [hostStep_cons hq, hread]
  exact (stepWith_hostAct hq hlag hstep).trans hread

/-! ### The statements on reset and hazards (70_reset_and_hazards.md) -/

/-- Settles O46: reset answers `resetEvent`, whose phase is IDLE, so it is not the core's turn. -/
theorem resetEventRestoresTheBlock : Obligations.ResetEventRestoresTheBlock := fun _ s =>
  ⟨s.resetEvent, rfl, rfl, rfl, rfl, rfl, rfl, rfl, rfl, read_nil, rfl⟩

/-- Settles O56: the run that comes to the core's turn; the command is then performed on the same input. -/
theorem pendingCommandIsPerformed : Obligations.PendingCommandIsPerformed := by
  unfold Obligations.PendingCommandIsPerformed
  intro p s i hb hd hreset
  obtain ⟨k, hk, t, hrun, hcore, hcmd, hilen, hibuf⟩ := device_run_to_coreTurn p hb hreset
  have hstep : stepOf p t = execOf p i t :=
    (stepOf_of_coreTurn hcore).trans (coreStepWith_of_decode (hcmd ▸ hd))
  refine ⟨k, hk, t, hrun, coreTurn_busy hcore, hcmd, hilen, hibuf, hstep, fun hwritten => ?_⟩
  have hwritten' : InputWritten t := by
    unfold InputWritten
    rwa [hilen, hibuf]
  obtain ⟨u, hu⟩ := (execOf_has_next_iff p i t).mpr hwritten'
  exact ⟨u, hstep.trans hu, execOf_phase hu⟩

/-- Settles O57: by induction on the number of reads, each one step that leaves the state BUSY. -/
theorem pollsBeforeCompletionReadBusy : Obligations.PollsBeforeCompletionReadBusy := by
  unfold Obligations.PollsBeforeCompletionReadBusy
  intro p n s rest hb hn hq
  induction n generalizing s with
  | zero =>
    obtain rfl : s.hostQueue = rest := hq
    rfl
  | succ n ih =>
    have hstep := stepOf_readStatus_busy p hb (Nat.ne_zero_of_lt hn) hq
    rw [device_run_succ n hstep, ih]
    · simp [State.reply, State.popAction, List.replicate_succ', Nat.sub_sub, Nat.add_comm]
    · exact hb
    · exact Nat.le_sub_one_of_lt hn
    · rfl

end Sys2Proof.Machine

namespace Sys2Proof.Machine

open Sys2Proof.Safety

/-! ### What keeps the invariant: every named update of the state -/

section KeepsInvariant

variable {p : Params} {s t : State}

/-- The host's queue, the replies and the lag are not the block's: the invariant does not see them. -/
theorem inv_popAction (rest : List HostAction) (h : Inv p s) : Inv p (s.popAction rest) := { h with }

theorem inv_reply (r : Reply) (h : Inv p s) : Inv p (s.reply r) := { h with }

theorem inv_setIlen {v : Word} (hv : legalLength p.maxInLen v.toNat = true) (h : Inv p s) : Inv p (s.setIlen v) :=
  { h with ilenLegal := hv }

theorem inv_storeIbuf {k : Nat} (v : Byte) (hk : hasAddress p.maxInLen k = true) (h : Inv p s) :
    Inv p (s.storeIbuf k v) :=
  { h with
    ibufWf := write_wf s.ibuf k v h.ibufWf
    ibufWithin := write_within p.maxInLen s.ibuf k v h.ibufWithin hk }

/-- Only a command word is written to `CMD`, and the block leaves IDLE with it (R68). -/
theorem inv_startCommand {v : Word} {i : Instr} (hd : decodeCommand v = .ok i) (h : Inv p s) :
    Inv p (s.startCommand v) :=
  { h with
    cmdReserved := (decodeCommand_eq_ok_iff v i).mp hd ▸ reservedBitsClear_encodeCommand i
    idleClean := nofun }

/-- Every register and buffer of the block is at its reset value (R270). -/
theorem inv_resetEvent (p : Params) (s : State) : Inv p s.resetEvent := { invariantAtReset p with }

/-- An OK completion keeps the invariant where the result's length fits `OLEN`. -/
theorem inv_complete {out : List Byte} (hfits : out.length < 2 ^ 32) (h : Inv p s) : Inv p (s.complete out) :=
  { h with
    obufLength := (Nat.mod_eq_of_lt hfits).symm
    errorEmpties := fun herr => absurd rfl herr
    errposZero := fun _ => rfl
    idleClean := nofun }

/-- ERR_LENGTH records position 0, and the other two errors may record any (R231). -/
theorem inv_raiseError (e : DecodeError) (h : Inv p s) : Inv p (s.raiseError e.code e.pos) :=
  { h with
    obufLength := rfl
    errorEmpties := fun _ => rfl
    errposZero := by cases e <;> simp [DecodeError.code, DecodeError.pos]
    idleClean := nofun }

/-! ### What keeps the invariant: commands, host actions and steps -/

/-- R7's inequality holds of a legal `ILEN`, so the encoding of the input fits `OLEN`. -/
theorem length_encodeBytes_fits {bs : List Byte} (h : Inv p s) (hi : s.input = some bs) :
    (encodeBytes bs).length < 2 ^ 32 := by
  have hfits := legalLength_fits h.ilenLegal
  obtain ⟨hlen, -⟩ := (input_eq_some s bs).mp hi
  rw [length_encodeBytes, hlen]
  omega

/-- What DECODE recovers is no longer than its input, so it fits `OLEN` as the input's length fits `ILEN`. -/
theorem length_strip_recoverBytes_fits (mode : StripMode) {cs : List Byte} (hi : s.input = some cs)
    (he : decodeErrorOf cs = none) : (strip mode (recoverBytes cs) (padCountOf cs)).length < 2 ^ 32 := by
  have hle := length_strip_recoverBytes_le mode he (padCountOf cs)
  have hilen := s.ilen.isLt
  obtain ⟨hlen, -⟩ := (input_eq_some s cs).mp hi
  omega

theorem inv_of_execOf {i : Instr} (h : Inv p s) (hx : execOf p i s = .next t) : Inv p t := by
  cases i with
  | encode =>
    obtain ⟨bs, hi, rfl⟩ := execEncode_next hx
    exact inv_complete (length_encodeBytes_fits h hi) h
  | decode =>
    obtain ⟨cs, hi, ⟨e, -, rfl⟩ | ⟨he, rfl⟩⟩ := runDecode_next hx
    · exact inv_raiseError e h
    · exact inv_complete (length_strip_recoverBytes_fits p.stripMode hi he) h

theorem inv_of_hostAct {a : HostAction} (h : Inv p s) (ha : hostAct p a s = .next t) : Inv p t := by
  obtain ⟨v, i, -, -, hd, rfl⟩ | ⟨v, -, -, hv, rfl⟩ | ⟨k, v, -, -, hk, rfl⟩ | ⟨r, rfl⟩ | ⟨-, rfl⟩ := hostAct_next ha
  · exact inv_startCommand hd h
  · exact inv_setIlen hv h
  · exact inv_storeIbuf v hk h
  · exact inv_reply r h
  · exact inv_resetEvent p s

theorem inv_of_stepOf (h : Inv p s) (hstep : stepOf p s = .next t) : Inv p t := by
  obtain ⟨-, i, -, hx⟩ | ⟨-, -, rfl⟩ | ⟨-, a, rest, -, ha⟩ := stepOf_next hstep
  · exact inv_of_execOf h hx
  · exact h
  · exact inv_of_hostAct (inv_popAction rest h) ha

end KeepsInvariant

/-- Settles O55: by the kinds of step, on this hardware as the device with its own parameters. -/
theorem invariantKeptByStep : Obligations.InvariantKeptByStep :=
  ⟨fun _ _ _ => inv_of_stepOf, fun s _ h hstep => inv_of_stepOf h (step_eq s ▸ hstep)⟩

/-! ### The ROMs by the spec's ranges (R30, R33) -/

/-- R30's formula, one case for each range of indices. -/
theorem toNat_alphaRom_cases : ∀ v : Index,
    (v.toNat ≤ 25 ∧ (alphaRom v).toNat = 0x41 + v.toNat) ∨
    (26 ≤ v.toNat ∧ v.toNat ≤ 51 ∧ (alphaRom v).toNat = 0x47 + v.toNat) ∨
    (52 ≤ v.toNat ∧ v.toNat ≤ 61 ∧ (alphaRom v).toNat = v.toNat - 4) ∨
    (v.toNat = 62 ∧ (alphaRom v).toNat = 0x2B) ∨
    (v.toNat = 63 ∧ (alphaRom v).toNat = 0x2F) := by decide

/-- DEC's classification undoes the alphabet, so two indices with one byte are one index (R35). -/
theorem alphaRom_injective : Function.Injective alphaRom := fun i j h =>
  CharClass.valid.inj ((classify_alphaRom i).symm.trans ((congrArg classify h).trans (classify_alphaRom j)))

/-- R34, R35: the entry of the alphabet's byte is bit 7 with the index below it. -/
theorem revRom_alphaRom (v : Index) : revRom (alphaRom v) = 0x80#8 ||| v.setWidth 8 := romsAreInverse.1 v

/-- R34: in the entry of a VALID byte bit 7 is set and bit 6 clear, and as a number it is 0x80 and the index. -/
theorem validEntry_fields : ∀ v : Index, entryValid (0x80#8 ||| v.setWidth 8) = true ∧
    entryPad (0x80#8 ||| v.setWidth 8) = false ∧ (0x80#8 ||| v.setWidth 8).toNat = 0x80 + v.toNat := by decide

/-- R33: every byte is the alphabet's at some index, or `PAD`, or has the INVALID entry. -/
theorem alphaRom_or_pad_or_invalid (c : Byte) :
    (∃ v, c = alphaRom v) ∨ c = pad ∨ (revRom c = 0x00#8 ∧ classify c = .invalid) := by
  cases hclass : classify c with
  | valid v => exact .inl ⟨v, alphaRom_of_valid c v hclass⟩
  | pad => exact .inr (.inl ((classify_eq_pad c).mp hclass))
  | invalid =>
    have hentry : entryValid (revRom c) = false ∧ entryPad (revRom c) = false := by
      unfold classify at hclass
      split_ifs at hclass with hvalid hpad
      exact ⟨Bool.eq_false_iff.mpr hvalid, Bool.eq_false_iff.mpr hpad⟩
    have hzero := revRom_eq_zero c
    rw [hentry.1, hentry.2] at hzero
    exact .inr (.inr ⟨of_decide_eq_true hzero, rfl⟩)

/-- A byte that the alphabet's formula gives for the index `n` has the VALID entry with that index. -/
theorem reverse_of_alphabet_range {c : Byte} {n : Nat}
    (h : (n ≤ 25 ∧ c.toNat = 0x41 + n) ∨ (26 ≤ n ∧ n ≤ 51 ∧ c.toNat = 0x47 + n) ∨
      (52 ≤ n ∧ n ≤ 61 ∧ c.toNat = n - 4)) :
    (revRom c).toNat = 0x80 + n ∧ classify c = .valid (BitVec.ofNat 6 n) := by
  have hn : (BitVec.ofNat 6 n).toNat = n := Nat.mod_eq_of_lt (by omega)
  have hrom := toNat_alphaRom_cases (BitVec.ofNat 6 n)
  rw [hn] at hrom
  obtain rfl : c = alphaRom (BitVec.ofNat 6 n) := BitVec.eq_of_toNat_eq (by omega)
  obtain ⟨-, -, hentry⟩ := validEntry_fields (BitVec.ofNat 6 n)
  rw [revRom_alphaRom, hentry, hn]
  exact ⟨rfl, classify_alphaRom _⟩

/-- Outside the ranges of the alphabet and away from `PAD` a byte has the INVALID entry. -/
theorem reverse_of_invalid_range {c : Byte}
    (h : c.toNat ≤ 0x2A ∨ (0x2C ≤ c.toNat ∧ c.toNat ≤ 0x2E) ∨ (0x3A ≤ c.toNat ∧ c.toNat ≤ 0x3C) ∨
      (0x3E ≤ c.toNat ∧ c.toNat ≤ 0x40) ∨ (0x5B ≤ c.toNat ∧ c.toNat ≤ 0x60) ∨ 0x7B ≤ c.toNat) :
    revRom c = 0x00#8 ∧ classify c = .invalid := by
  obtain ⟨v, rfl⟩ | rfl | hinvalid := alphaRom_or_pad_or_invalid c
  · have hrom := toNat_alphaRom_cases v
    omega
  · simp [pad] at h
  · exact hinvalid

/-- R34: what bits 7 and 6 and the index field of an entry say of the byte's class. -/
theorem entry_fields (c : Byte) :
    ((∃ v, classify c = .valid v) ↔ entryValid (revRom c) = true) ∧
    (classify c = .pad ↔ entryPad (revRom c) = true) ∧
    ¬ (entryValid (revRom c) = true ∧ entryPad (revRom c) = true) ∧
    (entryValid (revRom c) = false → entryIndex (revRom c) = 0#6) := by
  obtain ⟨v, rfl⟩ | rfl | ⟨hentry, hclass⟩ := alphaRom_or_pad_or_invalid c
  · obtain ⟨hvalid, hpad, -⟩ := validEntry_fields v
    simp [revRom_alphaRom, hvalid, hpad]
  · rw [show revRom pad = 0x40#8 from rfl]
    simp [entryValid, entryPad, entryIndex]
  · rw [hentry, hclass]
    simp [entryValid, entryPad, entryIndex]

/-- Settles O13: by R30's formula; the entries are distinct because DEC classifies them apart. -/
theorem alphabetRomContents : Obligations.AlphabetRomContents := by
  unfold Obligations.AlphabetRomContents
  refine ⟨fun i => ?_, fun i j h => alphaRom_injective h, rfl, alphaRom_ne_pad⟩
  have hrom := toNat_alphaRom_cases i
  simp only [← BitVec.toNat_inj, BitVec.toNat_ofNat]
  omega

/-- Settles O14: each VALID range is a range of the alphabet, or a single byte, and so is `PAD`. -/
theorem reverseRomContents : Obligations.ReverseRomContents := by
  unfold Obligations.ReverseRomContents
  intro c
  refine ⟨reverse_of_invalid_range, fun h => ?_, fun h => ?_, fun h1 h2 => reverse_of_alphabet_range (by omega),
    fun h => ?_, fun h1 h2 => reverse_of_alphabet_range (by omega),
    fun h1 h2 => reverse_of_alphabet_range (by omega), entry_fields c⟩
  · obtain rfl : c = 0x2B#8 := BitVec.eq_of_toNat_eq h
    decide
  · obtain rfl : c = 0x2F#8 := BitVec.eq_of_toNat_eq h
    decide
  · obtain rfl : c = pad := BitVec.eq_of_toNat_eq h
    exact ⟨rfl, classify_pad⟩

end Sys2Proof.Machine
